-- ==== Sys2Proof/Word.lean ====
section
/-! DEFINITION. The word types of the block: bus and command words, register contents, register
numbers. -/

namespace Sys2Proof

/-- A bus data word or a command word (R51, R70: 32 bits). -/
abbrev Word32 := BitVec 32

/-- The content of one field register: an unsigned value in `[0, 2^256)` (R12, R20). -/
abbrev Word256 := BitVec 256

/-- A field register number F0..F15 (R20). A point register Pk is named by the even number 2k (R22). -/
abbrev FReg := Fin 16

end Sys2Proof
end

