-- ==== Sys2Proof/Config.lean ====
section
/-! DEFINITION. What is fixed for an instance of the block: the curve constants of the ROM (R8 to
R10, R36), the widths of R7, and BASE, the one address the spec leaves open (R50). -/

namespace Sys2Proof

/-- The prime modulus p (R8). -/
def Config.p : Nat := 0xFFFFFFFFFFFFFFFFFFFFFFFFFFFFFFFFFFFFFFFFFFFFFFFFFFFFFFFEFFFFFC2F

/-- The group order n (R9). -/
def Config.n : Nat := 0xFFFFFFFFFFFFFFFFFFFFFFFFFFFFFFFEBAAEDCE6AF48A03BBFD25E8CD0364141

/-- The generator's x coordinate (R10). -/
def Config.gx : Nat := 0x79BE667EF9DCBBAC55A06295CE870B07029BFCDB2DCE28D959F2815B16F81798

/-- The generator's y coordinate (R10). -/
def Config.gy : Nat := 0x483ADA7726A3C4655DA4FBFC0E1108A8FD17B448A68554199C47D08FFB10D4B8

/-- NBITS, the scalar bits the engine scans (R7). -/
def Config.nbits : Nat := 256

/-- The size of the register window in bytes (R50: 1 KiB). -/
def Config.windowSize : Nat := 1024

/-- Which 1 KiB block of the host's address space the platform gives the window. Open in the spec
(R7, R50, D14): uninterpreted, so a claim holds for every placement. DESIGN CHOICE, log 2 (safe). -/
opaque Config.baseIndex : Nat

/-- BASE, the window's first bus address, 1 KiB aligned (R50). -/
def Config.base : Nat := Config.windowSize * Config.baseIndex

/-- An element of the field: an integer in `[0, p)` (R14). The units compute on these. A register may
hold any 256-bit value, and the range check of R175 is the only way from one to the other. -/
abbrev Fp := Fin Config.p

/-- A point `(x, y)` whose coordinates have passed the range check (R15, R130). -/
structure Point where
  x : Fp
  y : Fp
deriving DecidableEq, Repr

end Sys2Proof
end

