-- ==== Sys2Proof/Syntax.lean ====
section
/-! DEFINITION. The command set: one constructor per row of the opcode map (R77), with the operand
fields the row's form gives it. -/

namespace Sys2Proof

/-- LDC's selector, the four entries of the constant ROM (R36, R76). -/
inductive RomSel where
  | p
  | n
  | gx
  | gy
deriving DecidableEq, Repr

/-- A command. `rd`, `ra`, `rb` are the register numbers of the RD, RA and RB fields (R71). In a
P-form field the number must be even (R74): `Instr.wellFormed` checks it. -/
inductive Instr where
  /-- no operation (R120) -/
  | nop
  /-- modular addition, form F F F (R101) -/
  | fadd (rd ra rb : FReg)
  /-- modular subtraction, form F F F (R102) -/
  | fsub (rd ra rb : FReg)
  /-- modular multiplication, form F F F (R104) -/
  | fmul (rd ra rb : FReg)
  /-- modular division, form F F F (R106) -/
  | fdiv (rd ra rb : FReg)
  /-- multiplicative inverse, form F F 0 (R107) -/
  | finv (rd ra : FReg)
  /-- load curve constant, form F S 0 (R122) -/
  | ldc (rd : FReg) (sel : RomSel)
  /-- point doubling, form P P 0 (R133) -/
  | pdbl (rd ra : FReg)
  /-- point addition, form P P P (R137) -/
  | padd (rd ra rb : FReg)
  /-- scalar multiplication, form P F P: `ra` is the scalar, `rb` the base point (R154) -/
  | smul (rd ra rb : FReg)
  /-- scalar multiplication of the generator, form P F 0 (R155) -/
  | smulg (rd ra : FReg)
deriving DecidableEq, Repr

/-- The mnemonic of the opcode map (R77). -/
def Instr.mnemonic : Instr → String
  | .nop => "NOP"
  | .fadd _ _ _ => "FADD"
  | .fsub _ _ _ => "FSUB"
  | .fmul _ _ _ => "FMUL"
  | .fdiv _ _ _ => "FDIV"
  | .finv _ _ => "FINV"
  | .ldc _ _ => "LDC"
  | .pdbl _ _ => "PDBL"
  | .padd _ _ _ => "PADD"
  | .smul _ _ _ => "SMUL"
  | .smulg _ _ => "SMULG"

/-- The pseudo-instruction `FSQR Fd, Fa` (R82). -/
def Instr.fsqr (d a : FReg) : Instr := .fmul d a a

/-- The pseudo-instruction `FDBL Fd, Fa` (R82). -/
def Instr.fdbl (d a : FReg) : Instr := .fadd d a a

/-- The pseudo-instruction `PTOPUB Pd, Fk`, the document's `pr_to_pub` (R82). -/
def Instr.ptopub (d k : FReg) : Instr := .smulg d k

/-- The pseudo-instruction `PMUL Pd, Fk, Pb`, the document's `pointMultiply` (R82). -/
def Instr.pmul (d k b : FReg) : Instr := .smul d k b

end Sys2Proof
end

