-- ==== Sys2Proof/WellFormed.lean ====
section
/-! DEFINITION. Which commands have an encoding: a P-form field holds an even register number (R74).
Every other restriction of R77 is in the types of the fields. -/

namespace Sys2Proof

/-- The number names a point register: it is even (R74). -/
def FReg.isEven (r : FReg) : Bool := r.val % 2 == 0

/-- The command's form of R77 admits its operands. -/
def Instr.wellFormed : Instr → Bool
  | .nop => true
  | .fadd _ _ _ => true
  | .fsub _ _ _ => true
  | .fmul _ _ _ => true
  | .fdiv _ _ _ => true
  | .finv _ _ => true
  | .ldc _ _ => true
  | .pdbl rd ra => FReg.isEven rd && FReg.isEven ra
  | .padd rd ra rb => FReg.isEven rd && FReg.isEven ra && FReg.isEven rb
  | .smul rd _ rb => FReg.isEven rd && FReg.isEven rb
  | .smulg rd _ => FReg.isEven rd

end Sys2Proof
end

