-- ==== Sys2Proof/Decode.lean ====
section
/-! DEFINITION. The command word: its fields (R71), decoding, total on all 2^32 words (R78), the
encoder (R77), and the opcode map itself as a table of masks and matches. -/

namespace Sys2Proof

/-- OP = cmd[7:0] (R71). -/
def opField (w : Word32) : BitVec 8 := w.extractLsb' 0 8

/-- RD = cmd[11:8] (R71). -/
def rdField (w : Word32) : FReg := (w.extractLsb' 8 4).toFin

/-- RA = cmd[15:12] (R71). -/
def raField (w : Word32) : FReg := (w.extractLsb' 12 4).toFin

/-- RB = cmd[19:16] (R71). -/
def rbField (w : Word32) : FReg := (w.extractLsb' 16 4).toFin

/-- RSV = cmd[31:20], which must be 0 (R73). -/
def rsvField (w : Word32) : BitVec 12 := w.extractLsb' 20 12

/-- Why a word is illegal, the causes R174 lists. The block reports all five as ILLEGAL. -/
inductive Illegal where
  /-- an OP not in the opcode map -/
  | undefinedOp
  /-- a nonzero RSV field -/
  | reservedSet
  /-- an odd number in a point-register field -/
  | oddPoint
  /-- a nonzero field that must be 0 -/
  | nonzeroField
  /-- an LDC selector of 4..15 -/
  | badSelector
deriving DecidableEq, Repr

/-- LDC's selector immediate (R76): 0 p, 1 n, 2 Gx, 3 Gy, none for 4..15. -/
def romSel (v : FReg) : Option RomSel :=
  match v.val with
  | 0 => some .p
  | 1 => some .n
  | 2 => some .gx
  | 3 => some .gy
  | _ => none

/-- The command a word with RSV = 0 stands for, from its OP and its register fields (R72 to R77). -/
def decodeFields (op : Nat) (d a b : FReg) : Except Illegal Instr :=
  match op with
  | 0x00 => if d = 0 ∧ a = 0 ∧ b = 0 then .ok .nop else .error .nonzeroField
  | 0x01 => .ok (.fadd d a b)
  | 0x02 => .ok (.fsub d a b)
  | 0x03 => .ok (.fmul d a b)
  | 0x04 => .ok (.fdiv d a b)
  | 0x05 => if b = 0 then .ok (.finv d a) else .error .nonzeroField
  | 0x08 =>
    if b = 0 then
      match romSel a with
      | some sel => .ok (.ldc d sel)
      | none => .error .badSelector
    else .error .nonzeroField
  | 0x10 =>
    if b = 0 then
      if FReg.isEven d && FReg.isEven a then .ok (.pdbl d a) else .error .oddPoint
    else .error .nonzeroField
  | 0x11 =>
    if FReg.isEven d && FReg.isEven a && FReg.isEven b then .ok (.padd d a b)
    else .error .oddPoint
  | 0x20 => if FReg.isEven d && FReg.isEven b then .ok (.smul d a b) else .error .oddPoint
  | 0x21 =>
    if b = 0 then
      if FReg.isEven d then .ok (.smulg d a) else .error .oddPoint
    else .error .nonzeroField
  | _ => .error .undefinedOp

/-- Decode (R78): the command of the row that selects the word, or illegal, with the cause. -/
def decode (w : Word32) : Except Illegal Instr :=
  if rsvField w = 0 then decodeFields (opField w).toNat (rdField w) (raField w) (rbField w)
  else .error .reservedSet

/-- The SEL value of a ROM entry (R76, R81). -/
def RomSel.code : RomSel → FReg
  | .p => 0
  | .n => 1
  | .gx => 2
  | .gy => 3

/-- The opcode OP of a command (R77). -/
def Instr.opcode : Instr → BitVec 8
  | .nop => 0x00
  | .fadd _ _ _ => 0x01
  | .fsub _ _ _ => 0x02
  | .fmul _ _ _ => 0x03
  | .fdiv _ _ _ => 0x04
  | .finv _ _ => 0x05
  | .ldc _ _ => 0x08
  | .pdbl _ _ => 0x10
  | .padd _ _ _ => 0x11
  | .smul _ _ _ => 0x20
  | .smulg _ _ => 0x21

/-- `w = OP | RD << 8 | RA << 12 | RB << 16` (R77). -/
def encodeFields (op : BitVec 8) (d a b : FReg) : Word32 :=
  op.setWidth 32 ||| (BitVec.ofNat 32 d.val <<< 8) ||| (BitVec.ofNat 32 a.val <<< 12) |||
    (BitVec.ofNat 32 b.val <<< 16)

/-- Encode (R77): a field the form does not use is 0. -/
def encode (i : Instr) : Word32 :=
  match i with
  | .nop => encodeFields i.opcode 0 0 0
  | .fadd d a b => encodeFields i.opcode d a b
  | .fsub d a b => encodeFields i.opcode d a b
  | .fmul d a b => encodeFields i.opcode d a b
  | .fdiv d a b => encodeFields i.opcode d a b
  | .finv d a => encodeFields i.opcode d a 0
  | .ldc d sel => encodeFields i.opcode d sel.code 0
  | .pdbl d a => encodeFields i.opcode d a 0
  | .padd d a b => encodeFields i.opcode d a b
  | .smul d k b => encodeFields i.opcode d k b
  | .smulg d k => encodeFields i.opcode d k 0

/-- One row of the opcode map of R77. -/
structure OpcodeRow where
  mnemonic : String
  pattern : Word32
  mask : Word32
deriving DecidableEq, Repr

/-- A word is the command of a row iff `(w AND mask) = match` (R77). -/
def OpcodeRow.selects (r : OpcodeRow) (w : Word32) : Bool := (w &&& r.mask) == r.pattern

/-- The opcode map of R77, row by row. -/
def opcodeTable : List OpcodeRow :=
  [⟨"NOP", 0x00000000, 0xFFFFFFFF⟩, ⟨"FADD", 0x00000001, 0xFFF000FF⟩,
    ⟨"FSUB", 0x00000002, 0xFFF000FF⟩, ⟨"FMUL", 0x00000003, 0xFFF000FF⟩,
    ⟨"FDIV", 0x00000004, 0xFFF000FF⟩, ⟨"FINV", 0x00000005, 0xFFFF00FF⟩,
    ⟨"LDC", 0x00000008, 0xFFFFC0FF⟩, ⟨"PDBL", 0x00000010, 0xFFFF11FF⟩,
    ⟨"PADD", 0x00000011, 0xFFF111FF⟩, ⟨"SMUL", 0x00000020, 0xFFF101FF⟩,
    ⟨"SMULG", 0x00000021, 0xFFFF01FF⟩]

/-- The command word whose bits are `w`, as the opcode table numbers them: every bit at or above
`nbits` is 0. A command word is 32 bits and is one bus word, so no byte order enters (R58, R70). -/
def tableWord (nbits w : Nat) : Word32 := BitVec.ofNat 32 (w % 2 ^ nbits)

/-- The command the decoder reads from a table word, none where it refuses. -/
def decodeTableWord (nbits w : Nat) : Option Instr :=
  match decode (tableWord nbits w) with
  | .ok i => some i
  | .error _ => none

end Sys2Proof
end

