-- ==== Sys2Proof/Machine/State.lean ====
section
/-! DEFINITION. The machine's state as plain data: the block's own state (R20 to R46), and beside it
what is outside the block and moves it, the host's pending accesses and the schedule. -/

namespace Sys2Proof.Machine

/-- The hidden state of the scalar engine (R38, R152): its accumulator and the index of the scalar
bit it takes next, 0 to 255; 256 when every bit is taken. -/
structure Engine where
  acc : Point
  i : Nat
deriving DecidableEq, Repr

/-- The sequencer (R39): IDLE, or BUSY with the latched command word and the snapshot of the field
registers taken at acceptance (R43). -/
inductive Seq where
  | idle
  | busy (w : Word32) (ops : Vector Word256 16)
deriving DecidableEq, Repr

/-- What a bus access does: a read, or a write of a 32-bit word (R51). -/
inductive BusOp where
  | read
  | write (v : Word32)
deriving DecidableEq, Repr

/-- A host access to the window (R50, R51): its byte offset from BASE, its size in bytes, and what it
does. A size other than 4 can be put on the bus; the block does not admit it (R53). -/
structure BusAccess where
  offset : Nat
  size : Nat
  op : BusOp
deriving DecidableEq, Repr

/-- What the bus gives the host back for an admitted access (R53, R56): the data of a read, or the
acceptance of a write on the bus. -/
inductive BusReply where
  | data (v : Word32)
  | written
deriving DecidableEq, Repr

/-- Whose turn a step is. DESIGN CHOICE, log 1 (safe): the latency LAT and the interleaving of host
and sequencer, which the spec leaves to a draw (R7, R44, R217), are this plain data. -/
inductive Turn where
  /-- the host: its next access reaches the block -/
  | host
  /-- the sequencer works on the command in progress without completing it (R38) -/
  | work
  /-- the sequencer completes the command in progress (R44) -/
  | complete
  /-- the reset input, or power-on (R200) -/
  | reset
deriving DecidableEq, Repr

/-- The state of the block, R46's record with the hidden engine of R38, and of what surrounds it. -/
structure State where
  /-- F0..F15 (R20) -/
  f : Vector Word256 16
  /-- CMD, the last accepted command word (R25) -/
  cmd : Word32
  /-- STATUS.BUSY (R27) -/
  busy : Bool
  /-- STATUS.DONE (R28) -/
  done : Bool
  /-- STATUS.ERR (R29) -/
  err : Bool
  /-- STATUS.OVR (R30) -/
  ovr : Bool
  /-- STATUS.WERR (R31) -/
  werr : Bool
  /-- CTRL.IE (R32) -/
  ie : Bool
  /-- STATUS.ERRCODE (R29, R171) -/
  errcode : BitVec 4
  /-- STATUS.ERRREG (R29, R173) -/
  errreg : BitVec 4
  /-- the sequencer (R39) -/
  seq : Seq
  /-- the scalar engine's hidden state, none while it holds none (R38, R40) -/
  engine : Option Engine
  /-- the host's accesses not yet performed, in bus order (R61); outside the block -/
  bus : List BusAccess
  /-- who moves next; outside the block -/
  sched : List Turn
  /-- what the bus has given the host back, newest first; outside the block -/
  replies : List BusReply
deriving DecidableEq, Repr

/-- How the machine can stop. -/
inductive Fault where
  /-- Raised by the register window for an access it does not admit: not 4 bytes, misaligned, or
  unmapped (R53: "A model gives such an access no successful step (the host faults)"). Safe: the
  model stops where the host's own trap mechanism takes over. -/
  | busError (offset size : Nat)
deriving DecidableEq, Repr

/-- Why an instruction has no meaning. -/
inductive Refusal where
  /-- Raised by an arm of `exec` whose command has no meaning yet; safe. No arm raises it: every
  command is modelled. -/
  | notModelled (mnemonic : String)
deriving DecidableEq, Repr

/-- Reset (R40, R200): every register 0, the sequencer IDLE, no engine state. Nothing surrounds the
block yet: no access on the bus, no schedule, no reply (logs 1 and 3, DESIGN CHOICE). -/
def State.reset : State where
  f := Vector.replicate 16 0
  cmd := 0
  busy := false
  done := false
  err := false
  ovr := false
  werr := false
  ie := false
  errcode := 0
  errreg := 0
  seq := .idle
  engine := none
  bus := []
  sched := []
  replies := []

end Sys2Proof.Machine
end

