-- ==== Sys2Proof/Machine/Flags.lean ====
section
/-! DEFINITION. The status registers as words, the interrupt line, and CTRL's actions on the status
fields. The block has no flag that a command reads (R23). -/

namespace Sys2Proof.Machine

/-- STATUS as the host reads it (R26): BUSY 0, DONE 1, ERR 2, OVR 3, WERR 4, ERRCODE 11:8,
ERRREG 15:12, the rest 0. -/
def State.statusWord (s : State) : Word32 :=
  (0 : BitVec 16) ++ s.errreg ++ s.errcode ++ (0 : BitVec 3) ++ BitVec.ofBool s.werr ++
    BitVec.ofBool s.ovr ++ BitVec.ofBool s.err ++ BitVec.ofBool s.done ++ BitVec.ofBool s.busy

/-- CTRL as the host reads it: `zext_32(IE)` (R32). -/
def State.ctrlWord (s : State) : Word32 := (BitVec.ofBool s.ie).setWidth 32

/-- The output line `irq = STATUS.DONE AND CTRL.IE` (R37, R180). -/
def State.irq (s : State) : Bool := s.done && s.ie

/-- CTRL.CLR's action: DONE, ERR, ERRCODE, ERRREG, OVR, WERR cleared (R33). -/
def State.clearStatus (s : State) : State :=
  { s with done := false, err := false, errcode := 0, errreg := 0, ovr := false, werr := false }

end Sys2Proof.Machine
end

