-- ==== Sys2Proof/Machine/Ops.lean ====
section
/-! DEFINITION. The named operations over the block's state: the register file, acceptance of a
command (R43), completion with its results or with a command fault (R44, R172), and reset (R40). -/

namespace Sys2Proof.Machine

/-- A command fault (R171). RANGE and DIVZERO name the field register they are about (R173). -/
inductive CmdFault where
  | illegal
  | range (r : FReg)
  | divzero (r : FReg)
deriving DecidableEq, Repr

/-- The fault code written to ERRCODE (R171). -/
def CmdFault.code : CmdFault → BitVec 4
  | .illegal => 1
  | .range _ => 2
  | .divzero _ => 3

/-- The register number written to ERRREG, 0 for ILLEGAL (R173). -/
def CmdFault.reg : CmdFault → BitVec 4
  | .illegal => 0
  | .range r => BitVec.ofFin r
  | .divzero r => BitVec.ofFin r

/-- A write list, `Ok(writes)` of R44. -/
abbrev Writes := List (FReg × Word256)

/-- What executing a command yields: `Ok(writes)` or `Fault(code, r)` (R44). -/
abbrev Executed := Except CmdFault Writes

/-- Read of a field register (R13, R20). None is hardwired. -/
def readReg (f : Vector Word256 16) (r : FReg) : Word256 := f[r]

/-- Write of a field register (R13, R20). -/
def writeReg (f : Vector Word256 16) (r : FReg) (v : Word256) : Vector Word256 16 := f.set r v

/-- The live value of a field register. -/
abbrev State.reg (s : State) (r : FReg) : Word256 := readReg s.f r

/-- The operands a command reads: the acceptance snapshot (R43). With no command latched it is the
live registers, which no step of the machine uses (log 6). -/
def State.operands (s : State) : Vector Word256 16 :=
  match s.seq with
  | .idle => s.f
  | .busy _ ops => ops

/-- `F[r]` as a command rule reads it (R13, R43). -/
abbrev State.operand (s : State) (r : FReg) : Word256 := readReg s.operands r

/-- The register file after a list of writes, the later of two to one register winning (R45). -/
def writeRegs (f : Vector Word256 16) (ws : Writes) : Vector Word256 16 :=
  ws.foldl (fun f w => writeReg f w.1 w.2) f

/-- What every completion writes besides the results and the fault fields (R44): BUSY falls, DONE
rises, the sequencer is IDLE and the engine holds nothing (R40). -/
def State.retire (s : State) : State :=
  { s with busy := false, done := true, seq := .idle, engine := none }

/-- Completion with results: the writes, and no error (R44). -/
def State.completeOk (s : State) (ws : Writes) : State :=
  { s.retire with f := writeRegs s.f ws, err := false, errcode := 0, errreg := 0 }

/-- Taking a command fault, the block's only exception (R170, R172): it is recorded in STATUS, no
field register is written, nothing is saved and no control moves (R182). Return from it is the next
acceptance or CTRL.CLR (R183). -/
def State.completeFault (s : State) (c : CmdFault) : State :=
  { s.retire with err := true, errcode := c.code, errreg := c.reg }

/-- The completion step (R44). -/
def State.completeWith (s : State) (x : Executed) : State :=
  match x with
  | .ok ws => s.completeOk ws
  | .error c => s.completeFault c

/-- Completion of a command. An operand form the opcode map does not admit is ILLEGAL, before any
operand is examined (R174, R178); decoding gives no such command. -/
def completeCommand (i : Instr) (x : Executed) (s : State) : Host.Outcome State Fault Refusal :=
  .next (s.completeWith (if i.wellFormed then x else .error .illegal))

/-- Acceptance of word `w` (R43): CMD holds it, the operands are latched, BUSY rises, DONE and the
error fields are cleared; OVR and WERR stay. The engine has not begun. -/
def State.accept (s : State) (w : Word32) : State :=
  { s with
    cmd := w, seq := .busy w s.f, engine := none, busy := true, done := false, err := false,
    errcode := 0, errreg := 0 }

/-- Reset of the block (R34, R200): every piece of its state at the reset value of R40. What is
outside the block, the accesses on the bus, the schedule and the replies, stays. -/
def State.blockReset (s : State) : State :=
  { State.reset with bus := s.bus, sched := s.sched, replies := s.replies }

end Sys2Proof.Machine
end

