-- ==== Sys2Proof/Machine/Bus.lean ====
section
/-! DEFINITION. The host register window (R50 to R61): its map, its reads, its writes, and the access
the bus delivers. -/

namespace Sys2Proof.Machine

/-- What a mapped word of the window is (R24, R52, R54): CMD, STATUS, CTRL, or word `j` of `F[i]`. -/
inductive BusTarget where
  | cmd
  | status
  | ctrl
  | field (i : FReg) (j : Fin 8)
deriving DecidableEq, Repr

/-- The register map (R52, R54): what is mapped at a 4-aligned offset. -/
def windowMap (offset : Nat) : Option BusTarget :=
  if offset = 0x000 then some .cmd
  else if offset = 0x004 then some .status
  else if offset = 0x008 then some .ctrl
  else if 0x100 ≤ offset ∧ offset < 0x300 then
    some (.field (Fin.ofNat 16 ((offset - 0x100) / 32)) (Fin.ofNat 8 ((offset - 0x100) / 4 % 8)))
  else none

/-- The target of an access, none where it is not admitted: its size is 4 bytes, its offset a multiple
of 4, and the offset mapped (R53). -/
def busTarget (size offset : Nat) : Option BusTarget :=
  if size = 4 ∧ offset % 4 = 0 then windowMap offset else none

/-- The offset of word `j` of `F[i]` (R54). -/
def fieldOffset (i : FReg) (j : Fin 8) : Nat := 0x100 + 32 * i.val + 4 * j.val

/-- The low bit of word `j` of a field register (R54): word 0 is the most significant. -/
def wordShift (j : Fin 8) : Nat := 224 - 32 * j.val

/-- `v[255 - 32*j : 224 - 32*j]` (R54). -/
def getWord (v : Word256) (j : Fin 8) : Word32 := v.extractLsb' (wordShift j) 32

/-- `v[255 - 32*j : 224 - 32*j] <- w`, every other bit as it was (R55). -/
def setWord (v : Word256) (j : Fin 8) (w : Word32) : Word256 :=
  (v &&& ~~~((BitVec.allOnes 32).setWidth 256 <<< wordShift j)) ||| (w.setWidth 256 <<< wordShift j)

/-- What a read of a target returns: the committed value, BUSY or not (R25, R26, R32, R56). -/
def State.readTarget (s : State) : BusTarget → Word32
  | .cmd => s.cmd
  | .status => s.statusWord
  | .ctrl => s.ctrlWord
  | .field i j => getWord (s.reg i) j

/-- `MemRead(offset, 4)` (R13, R51): the word at an offset of the window, none where it is a bus
error. -/
def State.busRead (s : State) (offset : Nat) : Option Word32 := (busTarget 4 offset).map s.readTarget

/-- A write to CMD: accepted while BUSY = 0 (R43), else dropped with OVR set (R25, R30). -/
def State.writeCmd (s : State) (w : Word32) : State :=
  if s.busy then { s with ovr := true } else s.accept w

/-- A write to CTRL: SRST wins over every other bit (R34); else IE takes bit 0 (R35), and CLR clears
the status fields (R33). Reserved bits are ignored. -/
def State.writeCtrl (s : State) (w : Word32) : State :=
  if w[2] then s.blockReset
  else if w[1] then { s.clearStatus with ie := w[0] }
  else { s with ie := w[0] }

/-- A write to word `j` of `F[i]`: done while BUSY = 0, any value (R55), else dropped with WERR set
(R31, R57). -/
def State.writeFieldWord (s : State) (i : FReg) (j : Fin 8) (w : Word32) : State :=
  if s.busy then { s with werr := true } else { s with f := writeReg s.f i (setWord (s.reg i) j w) }

/-- What a write to a target does; a write to STATUS is ignored (R26, R59). -/
def State.writeTarget (s : State) (t : BusTarget) (w : Word32) : State :=
  match t with
  | .cmd => s.writeCmd w
  | .status => s
  | .ctrl => s.writeCtrl w
  | .field i j => s.writeFieldWord i j w

/-- The bus gives the host a reply (log 3). -/
def State.reply (s : State) (r : BusReply) : State := { s with replies := r :: s.replies }

/-- The block performs an access (R53, R59, R61): a bus error where it is not admitted, else its
effect, and the reply. -/
def busAccess (a : BusAccess) (s : State) : Host.Outcome State Fault Refusal :=
  match busTarget a.size a.offset with
  | none => .fault (.busError a.offset a.size)
  | some t =>
    match a.op with
    | .read => .next (s.reply (.data (s.readTarget t)))
    | .write v => .next ((s.writeTarget t v).reply .written)

/-- The host's turn: the next access in bus order (R61), or nothing when the bus is empty (R190). -/
def hostTurn (s : State) : Host.Outcome State Fault Refusal :=
  match s.bus with
  | [] => .next s
  | a :: rest => busAccess a { s with bus := rest }

/-- The offset of a bus address in the window at BASE, none for an address outside it (R50). -/
def windowOffset (addr : Nat) : Option Nat :=
  if Config.base ≤ addr ∧ addr < Config.base + Config.windowSize then some (addr - Config.base) else none

/-- The host puts an access at a bus address on the bus: it reaches the block only inside the window
(R50, R67). -/
def State.present (s : State) (addr size : Nat) (op : BusOp) : State :=
  match windowOffset addr with
  | some off => { s with bus := s.bus ++ [⟨off, size, op⟩] }
  | none => s

end Sys2Proof.Machine
end

