-- ==== Sys2Proof/Machine/Field.lean ====
section
/-! DEFINITION. The field functions of R14, on integers in `[0, p)`. -/

namespace Sys2Proof

/-- The least non-negative residue of `n` (R12). -/
def Fp.reduce (n : Nat) : Fp := ⟨n % Config.p, Nat.mod_lt _ (by decide)⟩

/-- A field element as a register's content (R12). -/
def Fp.toWord (a : Fp) : Word256 := BitVec.ofNat 256 a.val

/-- The integer 0 as a field element. -/
def Fp.zero : Fp := Fp.reduce 0

/-- The integer 1 as a field element. -/
def Fp.one : Fp := Fp.reduce 1

/-- `addp(a, b) = (a + b) mod p` (R14). -/
def addp (a b : Fp) : Fp := Fp.reduce (a.val + b.val)

/-- `subp(a, b) = (a - b) mod p`: `a - b + p` when `a < b` (R14). -/
def subp (a b : Fp) : Fp := Fp.reduce (a.val + Config.p - b.val)

/-- `mulp(a, b) = (a * b) mod p`, the full product reduced (R14, R104). -/
def mulp (a b : Fp) : Fp := Fp.reduce (a.val * b.val)

/-- The bits of a 256-bit exponent or scalar, most significant first: element `i` is bit `255 - i`
(R17). -/
def bitsMsbFirst (k : Word256) : List Bool := (List.range 256).map fun i => k.getLsbD (255 - i)

/-- One step of square-and-multiply. -/
def powpStep (b acc : Fp) (bit : Bool) : Fp :=
  if bit then mulp (mulp acc acc) b else mulp acc acc

/-- `b ^ e mod p`, by square-and-multiply over the exponent's bits. -/
def powp (b : Fp) (e : Word256) : Fp := (bitsMsbFirst e).foldl (powpStep b) Fp.one

/-- `invp(b)`, the `c` with `(b * c) mod p = 1` (R14), for `b` not 0. It is computed as
`b ^ (p - 2)`; the method is not architectural (R108; DESIGN CHOICE, log 5, safe). No command uses it
at 0: FDIV and FINV fault there, and the point units never reach it (R106, R107, R132, R136). -/
def invp (b : Fp) : Fp := powp b (BitVec.ofNat 256 (Config.p - 2))

/-- `divp(a, b) = mulp(a, invp(b))`, for `b` not 0 (R14). -/
def divp (a b : Fp) : Fp := mulp a (invp b)

end Sys2Proof
end

