-- ==== Sys2Proof/Machine/Point.lean ====
section
/-! DEFINITION. The point functions: the identity sentinel (R15), doubling (R131), the classification
of a pair of points (R135) and the total addition (R134). -/

namespace Sys2Proof

/-- The identity sentinel `ID = (0, 0)` (R15). -/
def Point.identity : Point := ⟨Fp.zero, Fp.zero⟩

/-- `is_identity(P)` (R15). -/
def Point.isIdentity (P : Point) : Bool := P.x == Fp.zero && P.y == Fp.zero

/-- `λ = (3·x²) / (2·y) mod p`, step 2 of doubling (R131). -/
def tangentSlope (P : Point) : Fp :=
  divp (mulp (Fp.reduce 3) (mulp P.x P.x)) (mulp (Fp.reduce 2) P.y)

/-- The doubling function `dbl` (R131). -/
def dbl (P : Point) : Point :=
  if P.isIdentity || P.y == Fp.zero then Point.identity
  else
    let lam := tangentSlope P
    let x3 := subp (mulp lam lam) (mulp (Fp.reduce 2) P.x)
    let y3 := subp (mulp lam (subp P.x x3)) P.y
    ⟨x3, y3⟩

/-- The classification of an input pair (R135). -/
inductive PairTag where
  | leftId
  | rightId
  | same
  | opposite
  | general
deriving DecidableEq, Repr

/-- The tag of a pair: the first condition of R135's table that holds. -/
def pairTag (P Q : Point) : PairTag :=
  if P.isIdentity then .leftId
  else if Q.isIdentity then .rightId
  else if P = Q then .same
  else if P.x = Q.x then .opposite
  else .general

/-- `λ = (y1 − y2) / (x1 − x2) mod p`, step 2 of addition (R134). -/
def chordSlope (P Q : Point) : Fp := divp (subp P.y Q.y) (subp P.x Q.x)

/-- The general formula, for points of different x (R134). -/
def chordSum (P Q : Point) : Point :=
  let lam := chordSlope P Q
  let x3 := subp (subp (mulp lam lam) P.x) Q.x
  let y3 := subp (mulp lam (subp P.x x3)) P.y
  ⟨x3, y3⟩

/-- The addition function `padd`, total on every pair (R134, R135, R139). -/
def padd (P Q : Point) : Point :=
  match pairTag P Q with
  | .leftId => Q
  | .rightId => P
  | .same => dbl P
  | .opposite => Point.identity
  | .general => chordSum P Q

/-- The generator `G = (Gx, Gy)` (R10, R155). -/
def Point.generator : Point := ⟨Fp.reduce Config.gx, Fp.reduce Config.gy⟩

/-- The curve equation `y² = x³ + 7 mod p` (R11). No command checks it (R130, R140); claims use it. -/
def Point.onCurve (P : Point) : Bool :=
  mulp P.y P.y == addp (mulp (mulp P.x P.x) P.x) (Fp.reduce 7)

end Sys2Proof
end

