-- ==== Sys2Proof/Machine/Operands.lean ====
section
/-! DEFINITION. The operand forms: field register, point register, scalar register and ROM selector
(R72 to R76), with the checks a read makes (R175, R176), and the writing of results. -/

namespace Sys2Proof.Machine

/-- Form F as a field operand: `if F[r] >= p: raise RANGE(r)` (R100, R175). -/
def fieldOperand (ops : Vector Word256 16) (r : FReg) : Except CmdFault Fp :=
  if h : (readReg ops r).toNat < Config.p then .ok ⟨(readReg ops r).toNat, h⟩ else .error (.range r)

/-- A divisor: `if F[r] = 0: raise DIVZERO(r)`, after the range check (R176, R178). -/
def divisorOperand (r : FReg) (b : Fp) : Except CmdFault Fp :=
  if b = Fp.zero then .error (.divzero r) else .ok b

/-- The second register of a pair, `F[r+1]` (R13, R22). -/
def pairReg (r : FReg) : FReg := r + 1

/-- Form P: the point `(F[r], F[r+1])`, its x checked before its y (R74, R130). -/
def pointOperand (ops : Vector Word256 16) (r : FReg) : Except CmdFault Point := do
  let x ← fieldOperand ops r
  let y ← fieldOperand ops (pairReg r)
  return ⟨x, y⟩

/-- Form F as a scalar: the register's value as it is, never checked and never reduced (R75, R150). -/
def scalarOperand (ops : Vector Word256 16) (r : FReg) : Word256 := readReg ops r

/-- The constant ROM (R36): `ROM(0) = p`, `ROM(1) = n`, `ROM(2) = Gx`, `ROM(3) = Gy`. -/
def rom : RomSel → Word256
  | .p => BitVec.ofNat 256 Config.p
  | .n => BitVec.ofNat 256 Config.n
  | .gx => BitVec.ofNat 256 Config.gx
  | .gy => BitVec.ofNat 256 Config.gy

/-- `F[r] <- v` for a field result (R13). -/
def fieldWrite (r : FReg) (v : Fp) : Writes := [(r, Fp.toWord v)]

/-- `PT(r) <- (x, y)` writes `F[r]` and `F[r+1]` (R13, R22). -/
def pointWrite (r : FReg) (P : Point) : Writes := [(r, Fp.toWord P.x), (pairReg r, Fp.toWord P.y)]

end Sys2Proof.Machine
end

