-- ==== Sys2Proof/Machine/Control.lean ====
section
/-! DEFINITION. NOP and LDC (R120 to R123). -/

namespace Sys2Proof.Machine

/-- NOP: no register written; it is a full command and completes (R120). -/
def execNop (s : State) : Host.Outcome State Fault Refusal :=
  completeCommand .nop (.ok []) s

/-- LDC: `F[d] <- ROM(SEL)`, no fault (R122). -/
def execLdc (rd : FReg) (sel : RomSel) (s : State) : Host.Outcome State Fault Refusal :=
  completeCommand (.ldc rd sel) (.ok [(rd, rom sel)]) s

end Sys2Proof.Machine
end

