-- ==== Sys2Proof/Machine/FieldArith.lean ====
section
/-! DEFINITION. The three field units: modular adder, multiplier and divider (R100 to R109). -/

namespace Sys2Proof.Machine

/-- A command of two field operands, RA checked before RB (R100). -/
def fieldBinary (op : Fp → Fp → Fp) (rd ra rb : FReg) (ops : Vector Word256 16) : Executed := do
  let a ← fieldOperand ops ra
  let b ← fieldOperand ops rb
  return fieldWrite rd (op a b)

/-- What FDIV yields: both range checks, then the divisor's zero check (R106, R178). -/
def fdivYields (rd ra rb : FReg) (ops : Vector Word256 16) : Executed := do
  let a ← fieldOperand ops ra
  let b ← fieldOperand ops rb
  let b ← divisorOperand rb b
  return fieldWrite rd (divp a b)

/-- What FINV yields: the range check, then the zero check (R107). -/
def finvYields (rd ra : FReg) (ops : Vector Word256 16) : Executed := do
  let a ← fieldOperand ops ra
  let a ← divisorOperand ra a
  return fieldWrite rd (invp a)

/-- FADD (R101). -/
def execFadd (rd ra rb : FReg) (s : State) : Host.Outcome State Fault Refusal :=
  completeCommand (.fadd rd ra rb) (fieldBinary addp rd ra rb s.operands) s

/-- FSUB, RA the minuend (R102). -/
def execFsub (rd ra rb : FReg) (s : State) : Host.Outcome State Fault Refusal :=
  completeCommand (.fsub rd ra rb) (fieldBinary subp rd ra rb s.operands) s

/-- FMUL (R104). -/
def execFmul (rd ra rb : FReg) (s : State) : Host.Outcome State Fault Refusal :=
  completeCommand (.fmul rd ra rb) (fieldBinary mulp rd ra rb s.operands) s

/-- FDIV, RA the dividend (R106). -/
def execFdiv (rd ra rb : FReg) (s : State) : Host.Outcome State Fault Refusal :=
  completeCommand (.fdiv rd ra rb) (fdivYields rd ra rb s.operands) s

/-- FINV (R107). -/
def execFinv (rd ra : FReg) (s : State) : Host.Outcome State Fault Refusal :=
  completeCommand (.finv rd ra) (finvYields rd ra s.operands) s

end Sys2Proof.Machine
end

