-- ==== Sys2Proof/Machine/PointArith.lean ====
section
/-! DEFINITION. The point units: PDBL and PADD (R130 to R141). -/

namespace Sys2Proof.Machine

/-- What PDBL yields (R133). -/
def pdblYields (rd ra : FReg) (ops : Vector Word256 16) : Executed := do
  let P ← pointOperand ops ra
  return pointWrite rd (dbl P)

/-- What PADD yields: the coordinates checked RA.x, RA.y, RB.x, RB.y (R137). -/
def paddYields (rd ra rb : FReg) (ops : Vector Word256 16) : Executed := do
  let P ← pointOperand ops ra
  let Q ← pointOperand ops rb
  return pointWrite rd (padd P Q)

/-- PDBL (R133). -/
def execPdbl (rd ra : FReg) (s : State) : Host.Outcome State Fault Refusal :=
  completeCommand (.pdbl rd ra) (pdblYields rd ra s.operands) s

/-- PADD (R137). -/
def execPadd (rd ra rb : FReg) (s : State) : Host.Outcome State Fault Refusal :=
  completeCommand (.padd rd ra rb) (paddYields rd ra rb s.operands) s

end Sys2Proof.Machine
end

