-- ==== Sys2Proof/Machine/Scalar.lean ====
section
/-! DEFINITION. Scalar multiplication: the document's algorithm `pmul` (R151) and the engine's
double-and-add-always schedule (R152), one iteration at a time. -/

namespace Sys2Proof.Machine

/-- One bit of the document's loop, steps 3a and 3b (R151): the accumulator and `started`. -/
def pmulStep (B : Point) (st : Point × Bool) (bit : Bool) : Point × Bool :=
  let acc := if st.2 then dbl st.1 else st.1
  if bit then (padd acc B, true) else (acc, st.2)

/-- `pmul(k, B)` as the document states it, with its `started` flag (R151). -/
def pmul (k : Word256) (B : Point) : Point :=
  ((bitsMsbFirst k).foldl (pmulStep B) (Point.identity, false)).1

/-- The engine before its first iteration (R152): `acc <- ID`. -/
def Engine.init : Engine := ⟨Point.identity, 0⟩

/-- One iteration of the engine (R152): always a doubling, always an addition, of the base point or of
the identity as the bit selects. -/
def Engine.iter (k : Word256) (B : Point) (e : Engine) : Engine :=
  ⟨padd (dbl e.acc) (if k.getLsbD (255 - e.i) then B else Point.identity), e.i + 1⟩

/-- `n` iterations of the engine. -/
def Engine.run (k : Word256) (B : Point) : Nat → Engine → Engine
  | 0, e => e
  | n + 1, e => Engine.run k B n (Engine.iter k B e)

/-- The iterations an engine still has to do, all of them: the accumulator it returns (R152). -/
def Engine.finish (k : Word256) (B : Point) (e : Engine) : Point :=
  (Engine.run k B (Config.nbits - e.i) e).acc

/-- `engine(k, B)`, the whole schedule from the start (R152). -/
def engine (k : Word256) (B : Point) : Point := Engine.finish k B Engine.init

end Sys2Proof.Machine
end

