-- ==== Sys2Proof/Machine/ScalarMul.lean ====
section
/-! DEFINITION. The scalar multiplier: SMUL and SMULG (R150 to R158). The engine takes up the
iterations from where it stands: from the start if it has not begun (log 4). -/

namespace Sys2Proof.Machine

/-- The engine as it stands: the one held, or the one before the first iteration (R152). -/
def State.engineNow (s : State) : Engine := s.engine.getD Engine.init

/-- What SMUL yields: the base point checked whatever the scalar, the scalar never (R154). -/
def smulYields (rd ra rb : FReg) (ops : Vector Word256 16) (e : Engine) : Executed := do
  let B ← pointOperand ops rb
  return pointWrite rd (Engine.finish (scalarOperand ops ra) B e)

/-- What SMULG yields: the base is the generator of the ROM; no check, no fault (R155). -/
def smulgYields (rd ra : FReg) (ops : Vector Word256 16) (e : Engine) : Executed :=
  .ok (pointWrite rd (Engine.finish (scalarOperand ops ra) Point.generator e))

/-- SMUL (R154). -/
def execSmul (rd ra rb : FReg) (s : State) : Host.Outcome State Fault Refusal :=
  completeCommand (.smul rd ra rb) (smulYields rd ra rb s.operands s.engineNow) s

/-- SMULG (R155). -/
def execSmulg (rd ra : FReg) (s : State) : Host.Outcome State Fault Refusal :=
  completeCommand (.smulg rd ra) (smulgYields rd ra s.operands s.engineNow) s

/-- The scalar and base point a command gives the engine; none for a command that does not use it,
and none where the base point fails its range check (R154, R155). -/
def engineJob (i : Instr) (ops : Vector Word256 16) : Option (Word256 × Point) :=
  match i with
  | .nop => none
  | .fadd _ _ _ => none
  | .fsub _ _ _ => none
  | .fmul _ _ _ => none
  | .fdiv _ _ _ => none
  | .finv _ _ => none
  | .ldc _ _ => none
  | .pdbl _ _ => none
  | .padd _ _ _ => none
  | .smul _ ra rb =>
    match pointOperand ops rb with
    | .ok B => some (scalarOperand ops ra, B)
    | .error _ => none
  | .smulg _ ra => some (scalarOperand ops ra, Point.generator)

/-- The engine's job under the latched command word (R38, R43). -/
def latchedJob (w : Word32) (ops : Vector Word256 16) : Option (Word256 × Point) :=
  match decode w with
  | .ok i => engineJob i ops
  | .error _ => none

end Sys2Proof.Machine
end

