-- ==== Sys2Proof/Machine/Dispatch.lean ====
section
/-! DEFINITION. The meaning of each command, one arm per constructor of Instr. -/

namespace Sys2Proof.Machine

def exec (i : Instr) (s : State) : Host.Outcome State Fault Refusal :=
  match i with
  | .nop => Sys2Proof.Machine.execNop s
  | .fadd rd ra rb => Sys2Proof.Machine.execFadd rd ra rb s
  | .fsub rd ra rb => Sys2Proof.Machine.execFsub rd ra rb s
  | .fmul rd ra rb => Sys2Proof.Machine.execFmul rd ra rb s
  | .fdiv rd ra rb => Sys2Proof.Machine.execFdiv rd ra rb s
  | .finv rd ra => Sys2Proof.Machine.execFinv rd ra s
  | .ldc rd sel => Sys2Proof.Machine.execLdc rd sel s
  | .pdbl rd ra => Sys2Proof.Machine.execPdbl rd ra s
  | .padd rd ra rb => Sys2Proof.Machine.execPadd rd ra rb s
  | .smul rd ra rb => Sys2Proof.Machine.execSmul rd ra rb s
  | .smulg rd ra => Sys2Proof.Machine.execSmulg rd ra s

end Sys2Proof.Machine
end

