-- ==== Sys2Proof/Machine/Sequencer.lean ====
section
/-! DEFINITION. The sequencer's steps on the command in progress: completing it (R44) and working on
it without completing (R38). -/

namespace Sys2Proof.Machine

/-- The completion step of a latched word (R44): decoding happens here, on the latched word (R78), and
an illegal word completes with the ILLEGAL fault (R79, R174). -/
def completeWord (w : Word32) (s : State) : Host.Outcome State Fault Refusal :=
  match decode w with
  | .ok i => exec i s
  | .error _ => .next (s.completeFault .illegal)

/-- The sequencer's turn to complete: the command in progress, or nothing when IDLE (R190). -/
def sequencerComplete (s : State) : Host.Outcome State Fault Refusal :=
  match s.seq with
  | .idle => .next s
  | .busy w _ => completeWord w s

/-- The engine after one more iteration, or as it is when every bit is taken (R152). -/
def Engine.advance (k : Word256) (B : Point) (e : Engine) : Engine :=
  if e.i < Config.nbits then Engine.iter k B e else e

/-- The sequencer's turn to work: under an SMUL or SMULG the engine takes one iteration, and nothing
the host can read changes (R38). Under any other command, or when IDLE, nothing changes. -/
def sequencerWork (s : State) : State :=
  match s.seq with
  | .idle => s
  | .busy w ops =>
    match latchedJob w ops with
    | none => s
    | some (k, B) => { s with engine := some (Engine.advance k B s.engineNow) }

end Sys2Proof.Machine
end

