-- ==== Sys2Proof/Machine/Step.lean ====
section
/-! DEFINITION. One step of the machine: the turn the schedule names, or, when the schedule has run
out, the command in progress completes and then the host's accesses follow. -/

namespace Sys2Proof.Machine

/-- The step when the schedule has run out (log 1): a command in progress completes (R217: "a command
in progress completes after finitely many steps"); IDLE, the next access reaches the block; with
neither, nothing happens (R190). -/
def stepUnscheduled (s : State) : Host.Outcome State Fault Refusal :=
  match s.seq with
  | .busy w _ => completeWord w s
  | .idle => hostTurn s

/-- The step of a turn (R44, R61, R200). -/
def takeTurn (t : Turn) (s : State) : Host.Outcome State Fault Refusal :=
  match t with
  | .host => hostTurn s
  | .work => .next (sequencerWork s)
  | .complete => sequencerComplete s
  | .reset => .next s.blockReset

/-- One step. -/
def step (s : State) : Host.Outcome State Fault Refusal :=
  match s.sched with
  | [] => stepUnscheduled s
  | t :: rest => takeTurn t { s with sched := rest }

/-- The state in which the very next step completes the command word `w` of the opcode table: the word
accepted (R43), as after a host's CMD write, and the sequencer's turn to complete put first. -/
def State.withFetchWord (s : State) (nbits w : Nat) : State :=
  { s.accept (tableWord nbits w) with sched := .complete :: s.sched }

end Sys2Proof.Machine
end

