-- ==== Sys2Proof/Machine/Assembler.lean ====
section
/-! DEFINITION. The assembler text of a command (R81). The pseudo-instructions of R82 are in
Syntax.lean. -/

namespace Sys2Proof.Machine

/-- `Fn` (R81). -/
def fieldName (r : FReg) : String := "F" ++ toString r.val

/-- `Pk`, which encodes as 2k (R81). -/
def pointName (r : FReg) : String := "P" ++ toString (r.val / 2)

/-- The selector's name (R81). -/
def selName : RomSel → String
  | .p => "P"
  | .n => "N"
  | .gx => "GX"
  | .gy => "GY"

/-- The text of a command, destination first (R81). -/
def assembly (i : Instr) : String :=
  match i with
  | .nop => "NOP"
  | .fadd d a b => "FADD " ++ fieldName d ++ ", " ++ fieldName a ++ ", " ++ fieldName b
  | .fsub d a b => "FSUB " ++ fieldName d ++ ", " ++ fieldName a ++ ", " ++ fieldName b
  | .fmul d a b => "FMUL " ++ fieldName d ++ ", " ++ fieldName a ++ ", " ++ fieldName b
  | .fdiv d a b => "FDIV " ++ fieldName d ++ ", " ++ fieldName a ++ ", " ++ fieldName b
  | .finv d a => "FINV " ++ fieldName d ++ ", " ++ fieldName a
  | .ldc d sel => "LDC " ++ fieldName d ++ ", " ++ selName sel
  | .pdbl d a => "PDBL " ++ pointName d ++ ", " ++ pointName a
  | .padd d a b => "PADD " ++ pointName d ++ ", " ++ pointName a ++ ", " ++ pointName b
  | .smul d k b => "SMUL " ++ pointName d ++ ", " ++ fieldName k ++ ", " ++ pointName b
  | .smulg d k => "SMULG " ++ pointName d ++ ", " ++ fieldName k

end Sys2Proof.Machine
end

