-- ==== Sys2Proof/Machine/HostProgram.lean ====
section
/-! DEFINITION. The host program notation of R83 as the bus accesses it names, and the byte buffer of
R58 as the words it makes. The loop of WAIT and the stop of CHECK are the host's own (R83): here each
is one read of STATUS. -/

namespace Sys2Proof.Machine

/-- `MemRead(addr, 4)` (R13). -/
def memRead (offset : Nat) : BusAccess := ⟨offset, 4, .read⟩

/-- `MemWrite(addr, 4, v)` (R13). -/
def memWrite (offset : Nat) (v : Word32) : BusAccess := ⟨offset, 4, .write v⟩

/-- `WRF Fi, v`: eight word writes, word 0 the most significant (R83). -/
def hostWrf (i : FReg) (v : Word256) : List BusAccess :=
  (List.finRange 8).map fun j => memWrite (fieldOffset i j) (getWord v j)

/-- `RDF Fi`: eight word reads (R83). -/
def hostRdf (i : FReg) : List BusAccess := (List.finRange 8).map fun j => memRead (fieldOffset i j)

/-- `ISSUE <command>` (R83). -/
def hostIssue (i : Instr) : List BusAccess := [memWrite 0x000 (encode i)]

/-- One read of STATUS: a turn of `WAIT`'s loop, and `CHECK` (R83). -/
def hostPoll : List BusAccess := [memRead 0x004]

/-- `CLR` (R83). -/
def hostClr : List BusAccess := [memWrite 0x008 0x00000002]

/-- `LDG Pk` (R83), for the even register number `r` of Pk. -/
def hostLdg (r : FReg) : List BusAccess :=
  hostIssue (.ldc r .gx) ++ hostPoll ++ hostIssue (.ldc (r + 1) .gy) ++ hostPoll

/-- Word `j` of a host's 32-byte big-endian buffer: `b[4j]` in bits 31:24 (R58). -/
def bufferWord (b : Vector (BitVec 8) 32) (j : Fin 8) : Word32 :=
  b[4 * j.val] ++ b[4 * j.val + 1] ++ b[4 * j.val + 2] ++ b[4 * j.val + 3]

/-- The buffer's value, `b[0]` most significant (R58). -/
def bufferValue (b : Vector (BitVec 8) 32) : Word256 :=
  BitVec.ofNat 256 (b.toList.foldl (fun n x => 256 * n + x.toNat) 0)

end Sys2Proof.Machine
end

