-- ==== Sys2Proof/Safety.lean ====
section
/-! DEFINITION. The terms claims are stated in: how a command ends, what it leaves alone, the machine's
invariant, and the curve the point units compute on. -/

namespace Sys2Proof.Machine

/-- What no completion changes: CMD, CTRL.IE, the sticky OVR and WERR (R25, R30, R31, R172), and what
is outside the block. -/
structure SameAround (s t : State) : Prop where
  cmd : t.cmd = s.cmd
  ie : t.ie = s.ie
  ovr : t.ovr = s.ovr
  werr : t.werr = s.werr
  bus : t.bus = s.bus
  sched : t.sched = s.sched
  replies : t.replies = s.replies

/-- The command has completed without a fault (R44), whatever it wrote. -/
structure CompletedOk (s t : State) : Prop where
  busy : t.busy = false
  done : t.done = true
  err : t.err = false
  errcode : t.errcode = 0
  errreg : t.errreg = 0
  seq : t.seq = .idle
  engine : t.engine = none
  around : SameAround s t

/-- The command has completed with the fault `code` naming register `r` (R44, R172): no field register
is written. -/
structure Faulted (s t : State) (code : BitVec 4) (r : FReg) : Prop where
  busy : t.busy = false
  done : t.done = true
  err : t.err = true
  errcode : t.errcode = code
  errreg : t.errreg.toNat = r.val
  seq : t.seq = .idle
  engine : t.engine = none
  regs : t.f = s.f
  around : SameAround s t

/-- Every field register but those of the list is as it was (R202). -/
def OnlyWrites (s t : State) (rs : List FReg) : Prop := ∀ q : FReg, q ∉ rs → t.reg q = s.reg q

/-- The register pair holds the point: both coordinates are in range and are its coordinates. -/
def HoldsPoint (f : Vector Word256 16) (r : FReg) (P : Point) : Prop :=
  (readReg f r).toNat = P.x.val ∧ (readReg f (pairReg r)).toNat = P.y.val

/-- The engine, if it has begun, has done its first iterations on scalar `k` and base `B` (R152, log 4). -/
def EngineFor (s : State) (k : Word256) (B : Point) : Prop :=
  ∀ e, s.engine = some e → e.i ≤ 256 ∧ e = Engine.run k B e.i Engine.init

/-- The registers a command checks, in the order it checks them: RA before RB, x before y (R175,
R178). -/
def rangeChecked : Instr → List FReg
  | .nop => []
  | .fadd _ ra rb => [ra, rb]
  | .fsub _ ra rb => [ra, rb]
  | .fmul _ ra rb => [ra, rb]
  | .fdiv _ ra rb => [ra, rb]
  | .finv _ ra => [ra]
  | .ldc _ _ => []
  | .pdbl _ ra => [ra, pairReg ra]
  | .padd _ ra rb => [ra, pairReg ra, rb, pairReg rb]
  | .smul _ _ rb => [rb, pairReg rb]
  | .smulg _ _ => []

/-- The divisor's register, for the two commands that divide (R176). -/
def divisorReg : Instr → Option FReg
  | .nop => none
  | .fadd _ _ _ => none
  | .fsub _ _ _ => none
  | .fmul _ _ _ => none
  | .fdiv _ _ rb => some rb
  | .finv _ ra => some ra
  | .ldc _ _ => none
  | .pdbl _ _ => none
  | .padd _ _ _ => none
  | .smul _ _ _ => none
  | .smulg _ _ => none

/-- The registers a command writes when it does not fault: its destination, RD (R202, R22). -/
def destRegs : Instr → List FReg
  | .nop => []
  | .fadd rd _ _ => [rd]
  | .fsub rd _ _ => [rd]
  | .fmul rd _ _ => [rd]
  | .fdiv rd _ _ => [rd]
  | .finv rd _ => [rd]
  | .ldc rd _ => [rd]
  | .pdbl rd _ => [rd, pairReg rd]
  | .padd rd _ _ => [rd, pairReg rd]
  | .smul rd _ _ => [rd, pairReg rd]
  | .smulg rd _ => [rd, pairReg rd]

/-- The next step is the host's, and it delivers the access `a`: by the schedule, or because the
schedule has run out and the sequencer is IDLE (the schedule is the model's, log 1). `s0` is the
state the access acts on, the turn and the
access taken off. -/
def NextAccess (s : State) (a : BusAccess) (s0 : State) : Prop :=
  ∃ more, s.bus = a :: more ∧
    ((∃ rest, s.sched = .host :: rest ∧ s0 = { s with bus := more, sched := rest }) ∨
      (s.sched = [] ∧ s.seq = .idle ∧ s0 = { s with bus := more }))

/-- The next step completes the command in progress, by the schedule or because it has run out (log 1). `s0`
is the state it acts on, the turn taken off. -/
def NextCompletion (s : State) (s0 : State) : Prop :=
  (∃ rest, s.sched = .complete :: rest ∧ s0 = { s with sched := rest }) ∨ (s.sched = [] ∧ s0 = s)

/-- The next step is a reset of the block: the reset input's turn, or a CTRL write with SRST (R200). -/
def NextReset (s : State) : Prop :=
  (∃ rest, s.sched = .reset :: rest) ∨ ∃ w s0, NextAccess s (memWrite 0x008 w) s0 ∧ w[2] = true

/-- The block is as reset leaves it (R40). -/
structure IsReset (t : State) : Prop where
  regs : ∀ r : FReg, t.reg r = 0
  cmd : t.cmd = 0
  status : t.busy = false ∧ t.done = false ∧ t.err = false ∧ t.ovr = false ∧ t.werr = false
  errcode : t.errcode = 0
  errreg : t.errreg = 0
  ie : t.ie = false
  seq : t.seq = .idle
  engine : t.engine = none

/-- The invariant of the machine: R46's, and what R29, R38, R43 and R171 add to it. -/
structure Inv (s : State) : Prop where
  /-- `busy = true` iff the sequencer is Busy (R46) -/
  busy_iff : s.busy = true ↔ ∃ w ops, s.seq = .busy w ops
  /-- `err = true` iff `errcode != 0` (R29, R46) -/
  err_iff : s.err = true ↔ s.errcode ≠ 0
  /-- while busy, DONE and the error fields are 0 (R28, R29, R46) -/
  busy_quiet : s.busy = true → s.done = false ∧ s.errcode = 0 ∧ s.errreg = 0
  /-- an error is that of a completed command (R29) -/
  err_done : s.err = true → s.done = true
  /-- with no error ERRREG is 0 (R29) -/
  reg_quiet : s.err = false → s.errreg = 0
  /-- ERRCODE is a code of R171 -/
  code_named : s.errcode.toNat ≤ 3
  /-- the latched word is CMD's, and the snapshot is the live registers (R43) -/
  latched : ∀ w ops, s.seq = .busy w ops → s.cmd = w ∧ s.f = ops
  /-- engine state is held only under an SMUL or SMULG, and is its first iterations (R38, R152) -/
  engine_held : ∀ e, s.engine = some e → ∃ w ops k B, s.seq = .busy w ops ∧
    latchedJob w ops = some (k, B) ∧ e.i ≤ 256 ∧ e = Engine.run k B e.i Engine.init

/-- The curve `y² = x³ + 7` over the residues mod p (R11), as Mathlib's Weierstrass curve. -/
def secp256k1 : WeierstrassCurve (ZMod Config.p) where
  a₁ := 0
  a₂ := 0
  a₃ := 0
  a₄ := 0
  a₆ := 7

/-- The pair of coordinates stands for the point of the curve's group: the sentinel (0, 0) for the
neutral element (R15), a pair of coordinates for the affine point with them. -/
def Represents (P : Point) (A : secp256k1.toAffine.Point) : Prop :=
  (P = Point.identity ∧ A = .zero) ∨
    ∃ h, A = .some (P.x.val : ZMod Config.p) (P.y.val : ZMod Config.p) h

end Sys2Proof.Machine
end

