-- ==== Sys2Proof/Certificates/Slice0/Obligations.lean ====
section
/-! DEFINITION. The statements about the machine, from the numbered rules of the spec. -/

open Sys2Proof Sys2Proof.Machine

/-! ## Command words -/

/-- R84's example words: each is decoded to the command beside it, and that command encodes to it. -/
def Obligations.SpecWordsDecodeAndEncode : Prop :=
  ∀ wi ∈ ([(0x00021301, .fadd 3 1 2), (0x00006602, .fsub 6 6 0), (0x00043504, .fdiv 5 3 4),
      (0x00009205, .finv 2 9), (0x00003108, .ldc 1 .gy), (0x00000010, .pdbl 0 0),
      (0x00020411, .padd 4 0 2), (0x00040220, .smul 2 0 4), (0x0000F621, .smulg 6 15)] :
      List (Word32 × Instr)),
    decode wi.1 = .ok wi.2 ∧ encode wi.2 = wi.1

/-- Decoding the word of any well-formed command gives the command back, every operand at every value
(R72 to R77). -/
def Obligations.DecodeOfEncodeIsTheCommand : Prop :=
  ∀ i : Instr, i.wellFormed = true → decode (encode i) = .ok i

/-- A word that decodes is the encoding of its command, which is well-formed: each word has one
meaning (R77, R78). -/
def Obligations.EncodeOfDecodeIsTheWord : Prop :=
  ∀ (w : Word32) (i : Instr), decode w = .ok i → i.wellFormed = true ∧ encode i = w

/-- The opcode map (R77) on all 2^32 words: a word is the command of a row iff `(w AND mask) = match`;
no two rows select one word; every mask covers OP; and a legal word is
`OP | RD << 8 | RA << 12 | RB << 16`. -/
def Obligations.WordsFollowTheOpcodeMap : Prop :=
  (∀ (w : Word32) (row : OpcodeRow), row ∈ opcodeTable →
      ((∃ i, decode w = .ok i ∧ i.mnemonic = row.mnemonic) ↔ w &&& row.mask = row.pattern)) ∧
  (∀ (w : Word32) (i : Instr), decode w = .ok i → ∃ row ∈ opcodeTable, row.mnemonic = i.mnemonic) ∧
  (∀ (w : Word32) (row row' : OpcodeRow), row ∈ opcodeTable → row' ∈ opcodeTable →
      w &&& row.mask = row.pattern → w &&& row'.mask = row'.pattern → row = row') ∧
  (∀ row ∈ opcodeTable, row.mask &&& 0xFF = 0xFF) ∧
  (∀ (w : Word32) (i : Instr), decode w = .ok i →
      w.toNat = i.opcode.toNat + 2 ^ 8 * (rdField w).val + 2 ^ 12 * (raField w).val
        + 2 ^ 16 * (rbField w).val)

/-- R79: the words no row of R77 selects are exactly those with an OP not in the table, an RSV bit set,
an odd number in a P field, a nonzero field where the form is 0, or a SEL of 4..15; and each, once
accepted, completes with ILLEGAL (ERRCODE 1, ERRREG 0) and no register write. -/
def Obligations.IllegalWordsAreTheListed : Prop :=
  ∀ w : Word32,
    ((∀ row ∈ opcodeTable, w &&& row.mask ≠ row.pattern) ↔
      (opField w ∉ ([0x00, 0x01, 0x02, 0x03, 0x04, 0x05, 0x08, 0x10, 0x11, 0x20, 0x21] :
          List (BitVec 8)) ∨
        rsvField w ≠ 0 ∨
        (opField w ∈ ([0x10, 0x11, 0x20, 0x21] : List (BitVec 8)) ∧ (rdField w).val % 2 = 1) ∨
        (opField w ∈ ([0x10, 0x11] : List (BitVec 8)) ∧ (raField w).val % 2 = 1) ∨
        (opField w ∈ ([0x11, 0x20] : List (BitVec 8)) ∧ (rbField w).val % 2 = 1) ∨
        (opField w = 0x00 ∧ (rdField w ≠ 0 ∨ raField w ≠ 0)) ∨
        (opField w ∈ ([0x00, 0x05, 0x08, 0x10, 0x21] : List (BitVec 8)) ∧ rbField w ≠ 0) ∨
        (opField w = 0x08 ∧ 4 ≤ (raField w).val))) ∧
    ((∀ row ∈ opcodeTable, w &&& row.mask ≠ row.pattern) →
      ∀ (s s0 : State) (ops : Vector Word256 16), s.seq = .busy w ops → NextCompletion s s0 →
        ∃ t, step s = .next t ∧ Faulted s0 t 1 0)

/-- The step that completes a latched word that decodes is `exec` of its command, on the state whose
turn has been taken (R44, R78). -/
def Obligations.StepCompletesTheLatchedCommand : Prop :=
  ∀ (s s0 : State) (w : Word32) (ops : Vector Word256 16) (i : Instr),
    s.seq = .busy w ops → NextCompletion s s0 → decode w = .ok i → step s = exec i s0

/-! ## What each command does -/

/-- R120: NOP completes without a fault and changes no field register; its word is 0, and any nonzero
bit in bits 31:8 makes a word with OP 0 illegal. It is a full command: its word is accepted, and makes
BUSY 1. -/
def Obligations.NopCompletes : Prop :=
  decode 0x00000000 = .ok .nop ∧
  (∀ w : Word32, opField w = 0x00 → w ≠ 0 → ∃ e, decode w = .error e) ∧
  (∀ s s0 : State, NextAccess s (memWrite 0x000 0x00000000) s0 → s.busy = false →
    ∃ t, step s = .next t ∧ t.busy = true ∧ t.seq = .busy 0x00000000 s.f) ∧
  ∀ s : State, ∃ t, exec .nop s = .next t ∧ CompletedOk s t ∧ t.f = s.f

/-- R122: LDC writes the constant of its selector, never faults, and writes no other register. -/
def Obligations.LdcLoadsTheConstant : Prop :=
  (∀ (d a : FReg), decode (encodeFields 0x08 d a 0) =
    if a = 0 then .ok (.ldc d .p) else if a = 1 then .ok (.ldc d .n)
    else if a = 2 then .ok (.ldc d .gx) else if a = 3 then .ok (.ldc d .gy)
    else .error .badSelector) ∧
  ∀ (s : State) (d : FReg) (sel : RomSel), ∃ t, exec (.ldc d sel) s = .next t ∧ CompletedOk s t ∧
    (t.reg d).toNat =
      (match sel with
        | .p => 0xFFFFFFFFFFFFFFFFFFFFFFFFFFFFFFFFFFFFFFFFFFFFFFFFFFFFFFFEFFFFFC2F
        | .n => 0xFFFFFFFFFFFFFFFFFFFFFFFFFFFFFFFEBAAEDCE6AF48A03BBFD25E8CD0364141
        | .gx => 0x79BE667EF9DCBBAC55A06295CE870B07029BFCDB2DCE28D959F2815B16F81798
        | .gy => 0x483ADA7726A3C4655DA4FBFC0E1108A8FD17B448A68554199C47D08FFB10D4B8) ∧
    OnlyWrites s t [d]

/-- R101: FADD faults RANGE on the first operand not below p, RA before RB; else
`F[d] <- (F[a] + F[b]) mod p`, and no other register changes. -/
def Obligations.FaddAddsModP : Prop :=
  ∀ (s : State) (d a b : FReg),
    decode (encodeFields 0x01 d a b) = .ok (.fadd d a b) ∧
    (Config.p ≤ (s.operand a).toNat →
      ∃ t, exec (.fadd d a b) s = .next t ∧ Faulted s t 2 a) ∧
    ((s.operand a).toNat < Config.p → Config.p ≤ (s.operand b).toNat →
      ∃ t, exec (.fadd d a b) s = .next t ∧ Faulted s t 2 b) ∧
    ((s.operand a).toNat < Config.p → (s.operand b).toNat < Config.p →
      ∃ t, exec (.fadd d a b) s = .next t ∧ CompletedOk s t ∧ OnlyWrites s t [d] ∧
        (t.reg d).toNat = ((s.operand a).toNat + (s.operand b).toNat) % Config.p)

/-- R102: FSUB faults RANGE on the first operand not below p, RA before RB; else
`F[d] <- F[a] - F[b]` if `F[a] >= F[b]`, else `F[a] - F[b] + p`, and no other register changes. -/
def Obligations.FsubSubtractsModP : Prop :=
  ∀ (s : State) (d a b : FReg),
    decode (encodeFields 0x02 d a b) = .ok (.fsub d a b) ∧
    (Config.p ≤ (s.operand a).toNat →
      ∃ t, exec (.fsub d a b) s = .next t ∧ Faulted s t 2 a) ∧
    ((s.operand a).toNat < Config.p → Config.p ≤ (s.operand b).toNat →
      ∃ t, exec (.fsub d a b) s = .next t ∧ Faulted s t 2 b) ∧
    ((s.operand a).toNat < Config.p → (s.operand b).toNat < Config.p →
      ∃ t, exec (.fsub d a b) s = .next t ∧ CompletedOk s t ∧ OnlyWrites s t [d] ∧
        ((t.reg d).toNat : Int) =
          if (s.operand b).toNat ≤ (s.operand a).toNat then
            ((s.operand a).toNat : Int) - (s.operand b).toNat
          else ((s.operand a).toNat : Int) - (s.operand b).toNat + Config.p)

/-- R104: FMUL faults RANGE on the first operand not below p, RA before RB; else
`F[d] <- (F[a] * F[b]) mod p` of the full product, and no other register changes. -/
def Obligations.FmulMultipliesModP : Prop :=
  ∀ (s : State) (d a b : FReg),
    decode (encodeFields 0x03 d a b) = .ok (.fmul d a b) ∧
    (Config.p ≤ (s.operand a).toNat →
      ∃ t, exec (.fmul d a b) s = .next t ∧ Faulted s t 2 a) ∧
    ((s.operand a).toNat < Config.p → Config.p ≤ (s.operand b).toNat →
      ∃ t, exec (.fmul d a b) s = .next t ∧ Faulted s t 2 b) ∧
    ((s.operand a).toNat < Config.p → (s.operand b).toNat < Config.p →
      ∃ t, exec (.fmul d a b) s = .next t ∧ CompletedOk s t ∧ OnlyWrites s t [d] ∧
        (t.reg d).toNat = ((s.operand a).toNat * (s.operand b).toNat) % Config.p)

/-- R106: FDIV faults RANGE on the first operand not below p, then DIVZERO on a zero divisor; else it
writes the unique q in `[0, p)` with `q * F[b] mod p = F[a]`, and no other register changes. -/
def Obligations.FdivDividesModP : Prop :=
  ∀ (s : State) (d a b : FReg),
    decode (encodeFields 0x04 d a b) = .ok (.fdiv d a b) ∧
    (Config.p ≤ (s.operand a).toNat →
      ∃ t, exec (.fdiv d a b) s = .next t ∧ Faulted s t 2 a) ∧
    ((s.operand a).toNat < Config.p → Config.p ≤ (s.operand b).toNat →
      ∃ t, exec (.fdiv d a b) s = .next t ∧ Faulted s t 2 b) ∧
    ((s.operand a).toNat < Config.p → (s.operand b).toNat = 0 →
      ∃ t, exec (.fdiv d a b) s = .next t ∧ Faulted s t 3 b) ∧
    ((s.operand a).toNat < Config.p → (s.operand b).toNat < Config.p →
      (s.operand b).toNat ≠ 0 →
      ∃ t, exec (.fdiv d a b) s = .next t ∧ CompletedOk s t ∧ OnlyWrites s t [d] ∧
        (t.reg d).toNat < Config.p ∧
        (t.reg d).toNat * (s.operand b).toNat % Config.p = (s.operand a).toNat ∧
        ∀ q < Config.p, q * (s.operand b).toNat % Config.p = (s.operand a).toNat →
          q = (t.reg d).toNat)

/-- R107: FINV faults RANGE on an operand not below p, DIVZERO on 0; else it writes the unique c in
`[1, p)` with `F[a] * c mod p = 1`, and no other register changes. -/
def Obligations.FinvInvertsModP : Prop :=
  ∀ (s : State) (d a : FReg),
    decode (encodeFields 0x05 d a 0) = .ok (.finv d a) ∧
    (Config.p ≤ (s.operand a).toNat →
      ∃ t, exec (.finv d a) s = .next t ∧ Faulted s t 2 a) ∧
    ((s.operand a).toNat = 0 →
      ∃ t, exec (.finv d a) s = .next t ∧ Faulted s t 3 a) ∧
    ((s.operand a).toNat < Config.p → (s.operand a).toNat ≠ 0 →
      ∃ t, exec (.finv d a) s = .next t ∧ CompletedOk s t ∧ OnlyWrites s t [d] ∧
        1 ≤ (t.reg d).toNat ∧ (t.reg d).toNat < Config.p ∧
        (s.operand a).toNat * (t.reg d).toNat % Config.p = 1 ∧
        ∀ c, 1 ≤ c → c < Config.p → (s.operand a).toNat * c % Config.p = 1 → c = (t.reg d).toNat)

/-- R133: PDBL faults RANGE on x, then on y; else the destination pair holds `dbl` of the source
point, and no other register changes. Here and below `pairReg r` is register `r + 1`, the y of the pair
named by an even `r` (R13, R22). -/
def Obligations.PdblDoublesThePoint : Prop :=
  ∀ (s : State) (d a : FReg), d.val % 2 = 0 → a.val % 2 = 0 →
    (pairReg d).val = d.val + 1 ∧ (pairReg a).val = a.val + 1 ∧
    decode (encodeFields 0x10 d a 0) = .ok (.pdbl d a) ∧
    (Config.p ≤ (s.operand a).toNat →
      ∃ t, exec (.pdbl d a) s = .next t ∧ Faulted s t 2 a) ∧
    ((s.operand a).toNat < Config.p → Config.p ≤ (s.operand (pairReg a)).toNat →
      ∃ t, exec (.pdbl d a) s = .next t ∧ Faulted s t 2 (pairReg a)) ∧
    (∀ P, HoldsPoint s.operands a P →
      ∃ t, exec (.pdbl d a) s = .next t ∧ CompletedOk s t ∧ OnlyWrites s t [d, pairReg d] ∧
        HoldsPoint t.f d (dbl P))

/-- R137: PADD faults RANGE on the first coordinate not below p in the order RA.x, RA.y, RB.x, RB.y;
else the destination pair holds `padd` of the two points, and no other register changes. -/
def Obligations.PaddAddsThePoints : Prop :=
  ∀ (s : State) (d a b : FReg), d.val % 2 = 0 → a.val % 2 = 0 → b.val % 2 = 0 →
    (pairReg d).val = d.val + 1 ∧ (pairReg a).val = a.val + 1 ∧ (pairReg b).val = b.val + 1 ∧
    decode (encodeFields 0x11 d a b) = .ok (.padd d a b) ∧
    (∀ pre r post, [a, pairReg a, b, pairReg b] = pre ++ r :: post →
      (∀ q ∈ pre, (s.operand q).toNat < Config.p) → Config.p ≤ (s.operand r).toNat →
      ∃ t, exec (.padd d a b) s = .next t ∧ Faulted s t 2 r) ∧
    (∀ P Q, HoldsPoint s.operands a P → HoldsPoint s.operands b Q →
      ∃ t, exec (.padd d a b) s = .next t ∧ CompletedOk s t ∧ OnlyWrites s t [d, pairReg d] ∧
        HoldsPoint t.f d (padd P Q))

/-- R154: SMUL checks the base point, x then y, whatever the scalar, and never the scalar; else the
destination pair holds `pmul(F[RA], PT(RB))`, the document's algorithm, wherever the engine stands in
its schedule for this scalar and base (that it may stand part-way is the model's choice, log 4). No
other register changes. -/
def Obligations.SmulComputesTheScalarMultiple : Prop :=
  ∀ (s : State) (d k b : FReg), d.val % 2 = 0 → b.val % 2 = 0 →
    (pairReg d).val = d.val + 1 ∧ (pairReg b).val = b.val + 1 ∧
    decode (encodeFields 0x20 d k b) = .ok (.smul d k b) ∧
    (Config.p ≤ (s.operand b).toNat →
      ∃ t, exec (.smul d k b) s = .next t ∧ Faulted s t 2 b) ∧
    ((s.operand b).toNat < Config.p → Config.p ≤ (s.operand (pairReg b)).toNat →
      ∃ t, exec (.smul d k b) s = .next t ∧ Faulted s t 2 (pairReg b)) ∧
    (∀ B, HoldsPoint s.operands b B → EngineFor s (s.operand k) B →
      ∃ t, exec (.smul d k b) s = .next t ∧ CompletedOk s t ∧ OnlyWrites s t [d, pairReg d] ∧
        HoldsPoint t.f d (pmul (s.operand k) B))

/-- R155: SMULG never faults; the destination pair holds `pmul(F[RA], G)` with G the ROM's generator,
wherever the engine stands in its schedule (the model's choice, log 4). No other register changes. -/
def Obligations.SmulgComputesTheGeneratorMultiple : Prop :=
  ∀ (s : State) (d k : FReg), d.val % 2 = 0 →
    (pairReg d).val = d.val + 1 ∧
    decode (encodeFields 0x21 d k 0) = .ok (.smulg d k) ∧
    (∀ G : Point,
      G.x.val = 0x79BE667EF9DCBBAC55A06295CE870B07029BFCDB2DCE28D959F2815B16F81798 →
      G.y.val = 0x483ADA7726A3C4655DA4FBFC0E1108A8FD17B448A68554199C47D08FFB10D4B8 →
      EngineFor s (s.operand k) G →
      ∃ t, exec (.smulg d k) s = .next t ∧ CompletedOk s t ∧ OnlyWrites s t [d, pairReg d] ∧
        HoldsPoint t.f d (pmul (s.operand k) G))

/-! ## The arithmetic -/

/-- R103: the laws of the modular adder. -/
def Obligations.ModularAdderLaws : Prop :=
  ∀ a b c : Fp,
    addp a b = addp b a ∧ addp (addp a b) c = addp a (addp b c) ∧
    subp (addp a b) b = a ∧ addp (subp a b) b = a ∧
    (∀ r : Fp, (r.val : Int) ≡ a.val + b.val [ZMOD Config.p] ↔ r = addp a b) ∧
    (∀ r : Fp, (r.val : Int) ≡ a.val - b.val [ZMOD Config.p] ↔ r = subp a b) ∧
    (addp a b).val = (if a.val + b.val < Config.p then a.val + b.val
      else a.val + b.val - Config.p) ∧
    ((subp a b).val : Int) = (if b.val ≤ a.val then (a.val : Int) - b.val
      else (a.val : Int) - b.val + Config.p)

/-- R105: the laws of the modular multiplier, the last because p is prime. -/
def Obligations.ModularMultiplierLaws : Prop :=
  ∀ a b c : Fp,
    mulp a b = mulp b a ∧ mulp (mulp a b) c = mulp a (mulp b c) ∧
    mulp a (addp b c) = addp (mulp a b) (mulp a c) ∧
    (mulp a b = Fp.zero ↔ a = Fp.zero ∨ b = Fp.zero)

/-- R108: the laws of the divider, for a divisor that is not 0. -/
def Obligations.DividerLaws : Prop :=
  ∀ a b : Fp, b ≠ Fp.zero →
    mulp (divp a b) b = a ∧ divp a b = mulp a (invp b) ∧ invp b ≠ Fp.zero ∧
    (divp a b = Fp.zero ↔ a = Fp.zero)

/-- R131: doubling. A point that is the identity or has y = 0 doubles to the identity; any other to
`(λ² − 2x, λ(x − x3) − y)` mod p, for the λ with `λ * 2y = 3x²` mod p. -/
def Obligations.DoublingFollowsTheTangent : Prop :=
  ∀ P : Point,
    (P = Point.identity ∨ P.y = Fp.zero → dbl P = Point.identity) ∧
    (P.y ≠ Fp.zero → ∃ lam : Fp,
      (lam.val * (2 * P.y.val) : Int) ≡ 3 * P.x.val ^ 2 [ZMOD Config.p] ∧
      ((dbl P).x.val : Int) ≡ lam.val ^ 2 - 2 * P.x.val [ZMOD Config.p] ∧
      ((dbl P).y.val : Int) ≡ lam.val * (P.x.val - (dbl P).x.val) - P.y.val [ZMOD Config.p])

/-- R134 and R135: addition. Every pair has the one tag whose condition is the first of the five to
hold, and the tag's result; the general one is `(λ² − x1 − x2, λ(x1 − x3) − y1)` mod p, for the λ with
`λ * (x1 − x2) = y1 − y2` mod p. -/
def Obligations.AdditionFollowsTheDispatch : Prop :=
  ∀ P Q : Point,
    (pairTag P Q = .leftId ↔ P = Point.identity) ∧
    (pairTag P Q = .rightId ↔ P ≠ Point.identity ∧ Q = Point.identity) ∧
    (pairTag P Q = .same ↔ P ≠ Point.identity ∧ Q ≠ Point.identity ∧ P = Q) ∧
    (pairTag P Q = .opposite ↔
      P ≠ Point.identity ∧ Q ≠ Point.identity ∧ P.x = Q.x ∧ P.y ≠ Q.y) ∧
    (pairTag P Q = .general ↔ P ≠ Point.identity ∧ Q ≠ Point.identity ∧ P.x ≠ Q.x) ∧
    (pairTag P Q = .leftId → padd P Q = Q) ∧
    (pairTag P Q = .rightId → padd P Q = P) ∧
    (pairTag P Q = .same → padd P Q = dbl P) ∧
    (pairTag P Q = .opposite → padd P Q = Point.identity) ∧
    (pairTag P Q = .general → ∃ lam : Fp,
      (lam.val * (P.x.val - Q.x.val) : Int) ≡ P.y.val - Q.y.val [ZMOD Config.p] ∧
      ((padd P Q).x.val : Int) ≡ lam.val ^ 2 - P.x.val - Q.x.val [ZMOD Config.p] ∧
      ((padd P Q).y.val : Int) ≡ lam.val * (P.x.val - (padd P Q).x.val) - P.y.val [ZMOD Config.p])

/-- R132 and R136: the divisors of the point formulas are never 0 where the formulas are reached. -/
def Obligations.PointUnitsNeverDivideByZero : Prop :=
  (∀ P : Point, P.y ≠ Fp.zero → mulp (Fp.reduce 2) P.y ≠ Fp.zero) ∧
  (∀ P Q : Point, pairTag P Q = .general → subp P.x Q.x ≠ Fp.zero)

/-- R138: addition is commutative on every input pair, on or off the curve. -/
def Obligations.AdditionCommutes : Prop := ∀ P Q : Point, padd P Q = padd Q P

/-- R141: the identity laws, and doubling is adding a point to itself, for every point. -/
def Obligations.IdentityAndDoublingLaws : Prop :=
  ∀ P : Point, padd P Point.identity = P ∧ padd Point.identity P = P ∧ dbl P = padd P P

/-- For inputs on the curve the adder computes the curve-group sum (R140): on points of the curve
`y² = x³ + 7` and the identity sentinel, `padd` is the addition of the curve's group, and `dbl` the
doubling. The primality of p is the one premise, as a class. -/
def Obligations.AdditionIsTheGroupLaw : Prop :=
  ∀ [Fact (Nat.Prime Config.p)] (P Q : Point) (A B : secp256k1.toAffine.Point),
    Represents P A → Represents Q B →
      Represents (padd P Q) (A + B) ∧ Represents (dbl P) (A + A)

/-- The scalar multiplier computes `scalar · basePoint under the group law`: for a base on the curve,
`pmul k B` is the k-fold sum of the curve's group, for every 256-bit scalar; and the generator is on
the curve, so SMULG's result is the public key of its scalar (R10, R158). -/
def Obligations.ScalarMultipleIsTheGroupMultiple : Prop :=
  ∀ [Fact (Nat.Prime Config.p)],
    (∀ (k : Word256) (B : Point) (A : secp256k1.toAffine.Point),
      Represents B A → Represents (pmul k B) (k.toNat • A)) ∧
    ∃ A : secp256k1.toAffine.Point, A ≠ 0 ∧ Represents Point.generator A

/-- R153: the engine's double-and-add-always schedule and the document's algorithm hold the same
accumulator after every iteration, and so return the same point. -/
def Obligations.EngineAgreesWithTheDocument : Prop :=
  ∀ (k : Word256) (B : Point),
    engine k B = pmul k B ∧
    ∀ m ≤ 256, (Engine.run k B m Engine.init).acc =
      (((bitsMsbFirst k).take m).foldl (pmulStep B) (Point.identity, false)).1

/-! ## Faults and frames of all commands -/

/-- R175 and the RANGE order of R178: a command faults RANGE naming the first of the registers it
checks, RA before RB and x before y, whose value is not below p; and it faults RANGE only so. The y of
the pair at an even `r` is register `r + 1`. -/
def Obligations.RangeFaultNamesTheFirstOutOfRange : Prop :=
  (∀ r : FReg, r.val % 2 = 0 → (pairReg r).val = r.val + 1) ∧
  ∀ (i : Instr) (s : State), i.wellFormed = true →
    (∀ pre r post, rangeChecked i = pre ++ r :: post →
      (∀ q ∈ pre, (s.operand q).toNat < Config.p) → Config.p ≤ (s.operand r).toNat →
      ∃ t, exec i s = .next t ∧ Faulted s t 2 r) ∧
    (∀ t, exec i s = .next t → t.errcode = 2 →
      ∃ r ∈ rangeChecked i, Config.p ≤ (s.operand r).toNat)

/-- R176: DIVZERO is raised by FDIV when `F[RB] = 0` and by FINV when `F[RA] = 0`, after the RANGE
checks pass, and by nothing else; it names the divisor. -/
def Obligations.DivzeroFaultIffZeroDivisor : Prop :=
  ∀ (i : Instr) (s t : State), i.wellFormed = true → exec i s = .next t →
    (t.errcode = 3 ↔ (∀ q ∈ rangeChecked i, (s.operand q).toNat < Config.p) ∧
      ∃ r, divisorReg i = some r ∧ (s.operand r).toNat = 0) ∧
    (t.errcode = 3 → ∃ r, divisorReg i = some r ∧ Faulted s t 3 r)

/-- R172: a faulting command writes no field register, sets ERR, DONE and not BUSY, and changes neither
CTRL nor OVR nor WERR nor CMD; the code is one of R171's. -/
def Obligations.FaultsArePrecise : Prop :=
  ∀ (i : Instr) (s t : State), exec i s = .next t → t.err = true →
    ∃ code r, Faulted s t code r ∧ (code = 1 ∨ code = 2 ∨ code = 3)

/-- The frame of every command (R202, R44): only its destination is written, and CMD, CTRL and the
sticky flags stay. -/
def Obligations.CommandWritesOnlyItsDestination : Prop :=
  ∀ (i : Instr) (s t : State), exec i s = .next t →
    OnlyWrites s t (destRegs i) ∧ SameAround s t ∧ t.seq = .idle ∧ t.busy = false ∧ t.done = true

/-- Every operand combination that does not fault has a result (R109): a command whose checked
registers are all below p, and whose divisor, if it has one, is not 0, completes without a fault. -/
def Obligations.CheckedCommandsComplete : Prop :=
  ∀ (i : Instr) (s : State), i.wellFormed = true →
    (∀ q ∈ rangeChecked i, (s.operand q).toNat < Config.p) →
    (∀ r, divisorReg i = some r → (s.operand r).toNat ≠ 0) →
    ∃ t, exec i s = .next t ∧ CompletedOk s t

/-- Every result of a field or point command is in `[0, p)` (R100, R130): after any command but LDC
that does not fault, its destination registers hold values below p. -/
def Obligations.ResultsAreReduced : Prop :=
  ∀ (i : Instr) (s t : State), (∀ d sel, i ≠ .ldc d sel) → exec i s = .next t → t.err = false →
    ∀ r ∈ destRegs i, (t.reg r).toNat < Config.p

/-- No command's result depends on STATUS, CTRL, or anything but the field registers (R23), nor on how
far the hidden engine has come (R38): two states with the same registers and operands, each engine in
its schedule, complete with the same registers and the same fault. -/
def Obligations.ResultsDependOnlyOnRegisters : Prop :=
  ∀ (i : Instr) (s s' t t' : State), s.f = s'.f → s.operands = s'.operands →
    (∀ k B, engineJob i s.operands = some (k, B) → EngineFor s k B ∧ EngineFor s' k B) →
    exec i s = .next t → exec i s' = .next t' →
    t.f = t'.f ∧ t.err = t'.err ∧ t.errcode = t'.errcode ∧ t.errreg = t'.errreg

/-! ## The register window -/

/-- R43: a CMD write while BUSY = 0 is accepted. CMD holds the word, the sequencer is Busy with the
word and a snapshot of every register, BUSY rises, DONE and the error fields are 0, and all else stays.
Every command reads its operands from the snapshot: while the sequencer is `busy w ops`, `F[r]` in a
command rule is `ops[r]`; and in every state that meets the invariant that is the live register. -/
def Obligations.CmdWriteWhileIdleIsAccepted : Prop :=
  (∀ (s s0 : State) (w : Word32), NextAccess s (memWrite 0x000 w) s0 → s.busy = false →
    ∃ t, step s = .next t ∧ t.cmd = w ∧ t.seq = .busy w s.f ∧ t.busy = true ∧ t.done = false ∧
      t.err = false ∧ t.errcode = 0 ∧ t.errreg = 0 ∧ t.ovr = s.ovr ∧ t.werr = s.werr ∧
      t.ie = s.ie ∧ t.f = s.f ∧ t.engine = none ∧ t.bus = s0.bus ∧ t.sched = s0.sched) ∧
  (∀ (s : State) (w : Word32) (ops : Vector Word256 16), s.seq = .busy w ops →
    s.operands = ops ∧ ∀ r : FReg, s.operand r = ops[r]) ∧
  (∀ s : State, Inv s → ∀ r : FReg, s.operand r = s.reg r ∧ s.reg r = s.f[r])

/-- R30: a CMD write while BUSY = 1 is dropped: OVR is set, and nothing else of the block changes; the
bus gives its reply. -/
def Obligations.CmdWriteWhileBusyIsDropped : Prop :=
  ∀ (s s0 : State) (w : Word32), NextAccess s (memWrite 0x000 w) s0 → s.busy = true →
    step s = .next { s0 with ovr := true, replies := .written :: s0.replies }

/-- R55: a field-word write while BUSY = 0 replaces the 32 bits of that word and changes no other bit
of any register: the word reads back, and every other offset of the window reads as before. -/
def Obligations.FieldWordWriteWhileIdle : Prop :=
  ∀ (s s0 : State) (i : FReg) (j : Fin 8) (v : Word32),
    NextAccess s (memWrite (0x100 + 32 * i.val + 4 * j.val) v) s0 → s.busy = false →
    ∃ t, step s = .next t ∧
      t.busRead (0x100 + 32 * i.val + 4 * j.val) = some v ∧
      (∀ off, off ≠ 0x100 + 32 * i.val + 4 * j.val → t.busRead off = s.busRead off) ∧
      (∀ b : Nat, (t.reg i).getLsbD b =
        if 224 - 32 * j.val ≤ b ∧ b ≤ 255 - 32 * j.val then v.getLsbD (b - (224 - 32 * j.val))
        else (s.reg i).getLsbD b) ∧
      (∀ q : FReg, q ≠ i → t.reg q = s.reg q) ∧
      t.seq = s.seq ∧ t.engine = s.engine ∧ t.bus = s0.bus ∧ t.sched = s0.sched

/-- R57: a field-word write while BUSY = 1 is dropped without a bus error: WERR is set, and nothing
else of the block changes. -/
def Obligations.FieldWordWriteWhileBusyIsDropped : Prop :=
  ∀ (s s0 : State) (i : FReg) (j : Fin 8) (v : Word32),
    NextAccess s (memWrite (0x100 + 32 * i.val + 4 * j.val) v) s0 → s.busy = true →
    step s = .next { s0 with werr := true, replies := .written :: s0.replies }

/-- R54 and R56: a read at `0x100 + 32*i + 4*j` returns `F[i][255-32j : 224-32j]`, the committed value,
BUSY or not, and changes nothing. -/
def Obligations.FieldWordReadReturnsTheCommittedWord : Prop :=
  ∀ (s s0 : State) (i : FReg) (j : Fin 8),
    NextAccess s (memRead (0x100 + 32 * i.val + 4 * j.val)) s0 →
    ∃ v : Word32, v.toNat = (s.reg i).toNat / 2 ^ (224 - 32 * j.val) % 2 ^ 32 ∧
      step s = .next { s0 with replies := .data v :: s0.replies }

/-- Reads have no side effect and return the register read (R25, R26, R32, R56, R59): whatever admitted
offset is read, the block does not change, and the reply is what that offset reads as: CMD's word at
0x000, the word of the STATUS fields at 0x004 (its layout is StatusWordLayout's), `zext_32(IE)` at
0x008, and word j of `F[i]` at its offset. -/
def Obligations.ReadsHaveNoSideEffect : Prop :=
  (∀ (s s0 : State) (off : Nat) (v : Word32), NextAccess s (memRead off) s0 →
    s.busRead off = some v → step s = .next { s0 with replies := .data v :: s0.replies }) ∧
  ∀ s : State, s.busRead 0x000 = some s.cmd ∧ s.busRead 0x004 = some s.statusWord ∧
    s.busRead 0x008 = some (BitVec.ofNat 32 s.ie.toNat) ∧
    ∀ (i : FReg) (j : Fin 8), s.busRead (0x100 + 32 * i.val + 4 * j.val)
      = some (BitVec.ofNat 32 ((s.reg i).toNat / 2 ^ (224 - 32 * j.val)))

/-- R53: an access gets a bus error exactly when its size is not 4, its offset is not a multiple of 4,
or its offset is not mapped in R52; else there is a next state. -/
def Obligations.BusErrorIffNotAdmitted : Prop :=
  ∀ (s s0 : State) (a : BusAccess), NextAccess s a s0 →
    ((a.size ≠ 4 ∨ a.offset % 4 ≠ 0 ∨
        ¬ (a.offset = 0x000 ∨ a.offset = 0x004 ∨ a.offset = 0x008 ∨
          (0x100 ≤ a.offset ∧ a.offset ≤ 0x2FF))) →
      step s = .fault (.busError a.offset a.size)) ∧
    ((a.size = 4 ∧ a.offset % 4 = 0 ∧
        (a.offset = 0x000 ∨ a.offset = 0x004 ∨ a.offset = 0x008 ∨
          (0x100 ≤ a.offset ∧ a.offset ≤ 0x2FF))) →
      ∃ t, step s = .next t)

/-- R26: STATUS as read, every field at its place and every reserved bit 0; a write to it is ignored
and is not a bus error. -/
def Obligations.StatusWordLayout : Prop :=
  (∀ s : State, ∃ v : Word32, s.busRead 0x004 = some v ∧
    v.toNat = s.busy.toNat + 2 * s.done.toNat + 4 * s.err.toNat + 8 * s.ovr.toNat
      + 16 * s.werr.toNat + 2 ^ 8 * s.errcode.toNat + 2 ^ 12 * s.errreg.toNat) ∧
  (∀ (s s0 : State) (w : Word32), NextAccess s (memWrite 0x004 w) s0 →
    step s = .next { s0 with replies := .written :: s0.replies })

/-- R33: CTRL with CLR and not SRST writes IE and clears DONE, ERR, ERRCODE, ERRREG, OVR and WERR; BUSY,
CMD, the registers and a command in progress stay. -/
def Obligations.CtrlClearClearsTheStatus : Prop :=
  ∀ (s s0 : State) (w : Word32), NextAccess s (memWrite 0x008 w) s0 → w[2] = false → w[1] = true →
    step s = .next { s0 with
      ie := w[0], done := false, err := false, errcode := 0, errreg := 0, ovr := false,
      werr := false, replies := .written :: s0.replies }

/-- R35: CTRL with neither CLR nor SRST only writes IE; CTRL then reads as `zext_32(IE)`. The reserved
bits 31:3 of the written word are ignored in every case. -/
def Obligations.CtrlWriteSetsTheEnable : Prop :=
  (∀ (s s0 : State) (w : Word32), NextAccess s (memWrite 0x008 w) s0 → w[2] = false →
    w[1] = false →
    step s = .next { s0 with ie := w[0], replies := .written :: s0.replies } ∧
    ∀ t, step s = .next t → t.busRead 0x008 = some (w &&& 1)) ∧
  (∀ (s s' s0 s0' : State) (w v : Word32), NextAccess s (memWrite 0x008 w) s0 →
    NextAccess s' (memWrite 0x008 v) s0' → s0 = s0' → w &&& 7 = v &&& 7 → step s = step s')

/-- R34, R40 and R200: power-on, a CTRL write with SRST, whatever its other bits, and the reset input,
each leave the block at its reset values, in one step, a command in progress abandoned. That nothing
outside the block changes but the reply is the model's choice (log 11). -/
def Obligations.ResetSourcesHaveOneEffect : Prop :=
  IsReset State.reset ∧
  (∀ (s s0 : State) (w : Word32), NextAccess s (memWrite 0x008 w) s0 → w[2] = true →
    ∃ t, step s = .next t ∧ IsReset t ∧ t.bus = s0.bus ∧ t.sched = s0.sched ∧
      t.replies = .written :: s.replies) ∧
  (∀ (s : State) (rest : List Turn), s.sched = .reset :: rest →
    ∃ t, step s = .next t ∧ IsReset t ∧ t.bus = s.bus ∧ t.sched = rest ∧ t.replies = s.replies)

/-- R180: `irq` is the level DONE AND IE; it rises at every completion, faulting or not, exactly when
CTRL.IE = 1, and is low after CTRL.CLR, an acceptance, a write of IE = 0, and a reset. -/
def Obligations.InterruptFollowsCompletion : Prop :=
  (∀ s : State, s.irq = true ↔ s.done = true ∧ s.ie = true) ∧
  (∀ (s s0 t : State) (w : Word32) (ops : Vector Word256 16), s.seq = .busy w ops →
    NextCompletion s s0 → step s = .next t → t.irq = s.ie) ∧
  (∀ (s s0 t : State) (w : Word32), NextAccess s (memWrite 0x008 w) s0 → step s = .next t →
    (w[1] = true ∨ w[2] = true ∨ w[0] = false) → t.irq = false) ∧
  (∀ (s s0 t : State) (w : Word32), NextAccess s (memWrite 0x000 w) s0 → s.busy = false →
    step s = .next t → t.irq = false) ∧
  (∀ (s t : State) (rest : List Turn), s.sched = .reset :: rest → step s = .next t → t.irq = false)

/-- R50: the window is the 1 KiB from BASE, which is a multiple of 1 KiB: an access the host presents
reaches the block, at its offset from BASE, exactly when its address lies there. -/
def Obligations.WindowLiesAtBase : Prop :=
  Config.base % 1024 = 0 ∧
  (∀ (s : State) (off size : Nat) (op : BusOp), off ≤ 0x3FF →
    s.present (Config.base + off) size op = { s with bus := s.bus ++ [⟨off, size, op⟩] }) ∧
  (∀ (s : State) (addr size : Nat) (op : BusOp),
    (addr < Config.base ∨ Config.base + 0x3FF < addr) → s.present addr size op = s)

/-- Eight word writes set a whole register (R54, R55, R60): from an IDLE block with nothing scheduled,
the eight accesses of WRF leave the register holding the value, and everything else of the block as it
was. With nothing scheduled the host's accesses follow one another: the model's choice, log 1. -/
def Obligations.EightWordWritesSetTheRegister : Prop :=
  ∀ (s : State) (i : FReg) (v : Word256) (more : List BusAccess),
    s.busy = false → s.seq = .idle → s.sched = [] → s.bus = hostWrf i v ++ more →
    Host.Core.run Sys2Proof.core 8 s =
      .next { s with f := writeReg s.f i v, bus := more,
                     replies := List.replicate 8 .written ++ s.replies }

/-! ## The whole machine -/

/-- R40, as the host reads it: after reset every word of the window that is mapped reads as 0, `irq` is
low, and the sequencer is IDLE with no engine state. -/
def Obligations.ResetLeavesTheResetValues : Prop :=
  (∀ (i : FReg) (j : Fin 8), State.reset.busRead (0x100 + 32 * i.val + 4 * j.val) = some 0) ∧
  State.reset.seq = .idle ∧ State.reset.engine = none ∧
    State.reset.busRead 0x000 = some 0 ∧ State.reset.busRead 0x004 = some 0 ∧
    State.reset.busRead 0x008 = some 0 ∧ State.reset.irq = false

/-- The machine's invariant holds after reset. -/
def Obligations.ResetMeetsTheInvariant : Prop := Inv State.reset

/-- R46, with R29, R38 and R43: every step from a state that meets the invariant gives one that meets
it. -/
def Obligations.StepKeepsTheInvariant : Prop :=
  ∀ s t : State, Inv s → step s = .next t → Inv t

/-- R30 and R31: OVR and WERR are sticky. OVR is set only by a CMD write while BUSY = 1, WERR only by a
field-word write while BUSY = 1, and each is cleared only by CTRL.CLR or a reset. -/
def Obligations.StickyFlagsChangeOnlySo : Prop :=
  ∀ s t : State, step s = .next t →
    (s.ovr = false → t.ovr = true →
      s.busy = true ∧ ∃ w s0, NextAccess s (memWrite 0x000 w) s0) ∧
    (s.werr = false → t.werr = true →
      s.busy = true ∧ ∃ (i : FReg) (j : Fin 8) (v : Word32) (s0 : State),
        NextAccess s (memWrite (0x100 + 32 * i.val + 4 * j.val) v) s0) ∧
    ((s.ovr = true ∧ t.ovr = false) ∨ (s.werr = true ∧ t.werr = false) →
      NextReset s ∨ ∃ w s0, NextAccess s (memWrite 0x008 w) s0 ∧ w[1] = true)

/-- R27: BUSY is set only by the acceptance of a CMD write, and cleared only by a completion or a
reset. -/
def Obligations.BusyChangesOnlySo : Prop :=
  ∀ s t : State, step s = .next t →
    (s.busy = false → t.busy = true → ∃ w s0, NextAccess s (memWrite 0x000 w) s0 ∧
      t.cmd = w ∧ t.seq = .busy w s.f) ∧
    (s.busy = true → t.busy = false →
      NextReset s ∨ ∃ w ops s0, s.seq = .busy w ops ∧ NextCompletion s s0)

/-- A field register changes only by a host word write to it while BUSY = 0, a completion, or a reset
(R42, R57, R202); in particular nothing changes one while a command is in progress. -/
def Obligations.RegistersChangeOnlySo : Prop :=
  ∀ (s t : State) (r : FReg), step s = .next t → t.reg r ≠ s.reg r →
    NextReset s ∨
    (s.busy = false ∧ ∃ (j : Fin 8) (v : Word32) (s0 : State),
      NextAccess s (memWrite (0x100 + 32 * r.val + 4 * j.val) v) s0) ∨
    (∃ w ops s0, s.seq = .busy w ops ∧ NextCompletion s s0)

/-- R38: no host access observes the hidden state of a command in progress: a step in which the
sequencer works without completing (the model's choice of a turn, logs 1 and 4) changes nothing any
offset reads as, and no output. -/
def Obligations.HiddenWorkIsInvisible : Prop :=
  ∀ (s : State) (rest : List Turn), s.sched = .work :: rest →
    ∃ t, step s = .next t ∧ (∀ off, t.busRead off = s.busRead off) ∧ t.irq = s.irq ∧
      t.seq = s.seq ∧ t.bus = s.bus ∧ t.sched = rest ∧ t.replies = s.replies

/-- The block never hangs (R217): from every state with a command in progress, whatever the schedule
and whatever admitted accesses are on the bus (one that is not admitted stops the model, log 8), the command has ended after at most one step more than
the schedule is long. That it completes when the schedule has run out is the model's choice of a bound
(log 1). -/
def Obligations.EveryAcceptedCommandEnds : Prop :=
  ∀ (s : State) (w : Word32) (ops : Vector Word256 16), s.busy = true → s.seq = .busy w ops →
    (∀ a ∈ s.bus, busTarget a.size a.offset ≠ none) →
    ∃ k ≤ s.sched.length + 1, ∃ t : State, Host.Core.run Sys2Proof.core k s = .next t ∧ t.busy = false
end

