-- ==== Sys2Proof/Laws/State.lean ====
section
/-! SUPPORT. One lemma per field per named update of State. -/

namespace Sys2Proof.Laws

open Sys2Proof.Machine

/-! ## What every completion writes (R44). -/

@[simp] theorem retire_f (s : State) : s.retire.f = s.f := rfl
@[simp] theorem retire_cmd (s : State) : s.retire.cmd = s.cmd := rfl
@[simp] theorem retire_busy (s : State) : s.retire.busy = false := rfl
@[simp] theorem retire_done (s : State) : s.retire.done = true := rfl
@[simp] theorem retire_err (s : State) : s.retire.err = s.err := rfl
@[simp] theorem retire_ovr (s : State) : s.retire.ovr = s.ovr := rfl
@[simp] theorem retire_werr (s : State) : s.retire.werr = s.werr := rfl
@[simp] theorem retire_ie (s : State) : s.retire.ie = s.ie := rfl
@[simp] theorem retire_errcode (s : State) : s.retire.errcode = s.errcode := rfl
@[simp] theorem retire_errreg (s : State) : s.retire.errreg = s.errreg := rfl
@[simp] theorem retire_seq (s : State) : s.retire.seq = .idle := rfl
@[simp] theorem retire_engine (s : State) : s.retire.engine = none := rfl
@[simp] theorem retire_bus (s : State) : s.retire.bus = s.bus := rfl
@[simp] theorem retire_sched (s : State) : s.retire.sched = s.sched := rfl
@[simp] theorem retire_replies (s : State) : s.retire.replies = s.replies := rfl

/-! ## Completion with results (R44). -/

@[simp] theorem completeOk_f (s : State) (ws : Writes) :
    (s.completeOk ws).f = writeRegs s.f ws := rfl
@[simp] theorem completeOk_cmd (s : State) (ws : Writes) : (s.completeOk ws).cmd = s.cmd := rfl
@[simp] theorem completeOk_busy (s : State) (ws : Writes) : (s.completeOk ws).busy = false := rfl
@[simp] theorem completeOk_done (s : State) (ws : Writes) : (s.completeOk ws).done = true := rfl
@[simp] theorem completeOk_err (s : State) (ws : Writes) : (s.completeOk ws).err = false := rfl
@[simp] theorem completeOk_ovr (s : State) (ws : Writes) : (s.completeOk ws).ovr = s.ovr := rfl
@[simp] theorem completeOk_werr (s : State) (ws : Writes) : (s.completeOk ws).werr = s.werr := rfl
@[simp] theorem completeOk_ie (s : State) (ws : Writes) : (s.completeOk ws).ie = s.ie := rfl
@[simp] theorem completeOk_errcode (s : State) (ws : Writes) : (s.completeOk ws).errcode = 0 := rfl
@[simp] theorem completeOk_errreg (s : State) (ws : Writes) : (s.completeOk ws).errreg = 0 := rfl
@[simp] theorem completeOk_seq (s : State) (ws : Writes) : (s.completeOk ws).seq = .idle := rfl
@[simp] theorem completeOk_engine (s : State) (ws : Writes) : (s.completeOk ws).engine = none := rfl
@[simp] theorem completeOk_bus (s : State) (ws : Writes) : (s.completeOk ws).bus = s.bus := rfl
@[simp] theorem completeOk_sched (s : State) (ws : Writes) :
    (s.completeOk ws).sched = s.sched := rfl
@[simp] theorem completeOk_replies (s : State) (ws : Writes) :
    (s.completeOk ws).replies = s.replies := rfl

/-! ## Completion with a command fault (R172). -/

@[simp] theorem completeFault_f (s : State) (c : CmdFault) : (s.completeFault c).f = s.f := rfl
@[simp] theorem completeFault_cmd (s : State) (c : CmdFault) :
    (s.completeFault c).cmd = s.cmd := rfl
@[simp] theorem completeFault_busy (s : State) (c : CmdFault) :
    (s.completeFault c).busy = false := rfl
@[simp] theorem completeFault_done (s : State) (c : CmdFault) :
    (s.completeFault c).done = true := rfl
@[simp] theorem completeFault_err (s : State) (c : CmdFault) : (s.completeFault c).err = true := rfl
@[simp] theorem completeFault_ovr (s : State) (c : CmdFault) :
    (s.completeFault c).ovr = s.ovr := rfl
@[simp] theorem completeFault_werr (s : State) (c : CmdFault) :
    (s.completeFault c).werr = s.werr := rfl
@[simp] theorem completeFault_ie (s : State) (c : CmdFault) : (s.completeFault c).ie = s.ie := rfl
@[simp] theorem completeFault_errcode (s : State) (c : CmdFault) :
    (s.completeFault c).errcode = c.code := rfl
@[simp] theorem completeFault_errreg (s : State) (c : CmdFault) :
    (s.completeFault c).errreg = c.reg := rfl
@[simp] theorem completeFault_seq (s : State) (c : CmdFault) :
    (s.completeFault c).seq = .idle := rfl
@[simp] theorem completeFault_engine (s : State) (c : CmdFault) :
    (s.completeFault c).engine = none := rfl
@[simp] theorem completeFault_bus (s : State) (c : CmdFault) :
    (s.completeFault c).bus = s.bus := rfl
@[simp] theorem completeFault_sched (s : State) (c : CmdFault) :
    (s.completeFault c).sched = s.sched := rfl
@[simp] theorem completeFault_replies (s : State) (c : CmdFault) :
    (s.completeFault c).replies = s.replies := rfl

/-! ## Acceptance (R43). -/

@[simp] theorem accept_f (s : State) (w : Word32) : (s.accept w).f = s.f := rfl
@[simp] theorem accept_cmd (s : State) (w : Word32) : (s.accept w).cmd = w := rfl
@[simp] theorem accept_busy (s : State) (w : Word32) : (s.accept w).busy = true := rfl
@[simp] theorem accept_done (s : State) (w : Word32) : (s.accept w).done = false := rfl
@[simp] theorem accept_err (s : State) (w : Word32) : (s.accept w).err = false := rfl
@[simp] theorem accept_ovr (s : State) (w : Word32) : (s.accept w).ovr = s.ovr := rfl
@[simp] theorem accept_werr (s : State) (w : Word32) : (s.accept w).werr = s.werr := rfl
@[simp] theorem accept_ie (s : State) (w : Word32) : (s.accept w).ie = s.ie := rfl
@[simp] theorem accept_errcode (s : State) (w : Word32) : (s.accept w).errcode = 0 := rfl
@[simp] theorem accept_errreg (s : State) (w : Word32) : (s.accept w).errreg = 0 := rfl
@[simp] theorem accept_seq (s : State) (w : Word32) : (s.accept w).seq = .busy w s.f := rfl
@[simp] theorem accept_engine (s : State) (w : Word32) : (s.accept w).engine = none := rfl
@[simp] theorem accept_bus (s : State) (w : Word32) : (s.accept w).bus = s.bus := rfl
@[simp] theorem accept_sched (s : State) (w : Word32) : (s.accept w).sched = s.sched := rfl
@[simp] theorem accept_replies (s : State) (w : Word32) : (s.accept w).replies = s.replies := rfl

/-! ## CTRL.CLR (R33). -/

@[simp] theorem clearStatus_f (s : State) : s.clearStatus.f = s.f := rfl
@[simp] theorem clearStatus_cmd (s : State) : s.clearStatus.cmd = s.cmd := rfl
@[simp] theorem clearStatus_busy (s : State) : s.clearStatus.busy = s.busy := rfl
@[simp] theorem clearStatus_done (s : State) : s.clearStatus.done = false := rfl
@[simp] theorem clearStatus_err (s : State) : s.clearStatus.err = false := rfl
@[simp] theorem clearStatus_ovr (s : State) : s.clearStatus.ovr = false := rfl
@[simp] theorem clearStatus_werr (s : State) : s.clearStatus.werr = false := rfl
@[simp] theorem clearStatus_ie (s : State) : s.clearStatus.ie = s.ie := rfl
@[simp] theorem clearStatus_errcode (s : State) : s.clearStatus.errcode = 0 := rfl
@[simp] theorem clearStatus_errreg (s : State) : s.clearStatus.errreg = 0 := rfl
@[simp] theorem clearStatus_seq (s : State) : s.clearStatus.seq = s.seq := rfl
@[simp] theorem clearStatus_engine (s : State) : s.clearStatus.engine = s.engine := rfl
@[simp] theorem clearStatus_bus (s : State) : s.clearStatus.bus = s.bus := rfl
@[simp] theorem clearStatus_sched (s : State) : s.clearStatus.sched = s.sched := rfl
@[simp] theorem clearStatus_replies (s : State) : s.clearStatus.replies = s.replies := rfl

/-! ## Reset of the block (R40, R200). -/

@[simp] theorem blockReset_f (s : State) : s.blockReset.f = Vector.replicate 16 0 := rfl
@[simp] theorem blockReset_cmd (s : State) : s.blockReset.cmd = 0 := rfl
@[simp] theorem blockReset_busy (s : State) : s.blockReset.busy = false := rfl
@[simp] theorem blockReset_done (s : State) : s.blockReset.done = false := rfl
@[simp] theorem blockReset_err (s : State) : s.blockReset.err = false := rfl
@[simp] theorem blockReset_ovr (s : State) : s.blockReset.ovr = false := rfl
@[simp] theorem blockReset_werr (s : State) : s.blockReset.werr = false := rfl
@[simp] theorem blockReset_ie (s : State) : s.blockReset.ie = false := rfl
@[simp] theorem blockReset_errcode (s : State) : s.blockReset.errcode = 0 := rfl
@[simp] theorem blockReset_errreg (s : State) : s.blockReset.errreg = 0 := rfl
@[simp] theorem blockReset_seq (s : State) : s.blockReset.seq = .idle := rfl
@[simp] theorem blockReset_engine (s : State) : s.blockReset.engine = none := rfl
@[simp] theorem blockReset_bus (s : State) : s.blockReset.bus = s.bus := rfl
@[simp] theorem blockReset_sched (s : State) : s.blockReset.sched = s.sched := rfl
@[simp] theorem blockReset_replies (s : State) : s.blockReset.replies = s.replies := rfl

/-! ## A reply on the bus. -/

@[simp] theorem reply_f (s : State) (r : BusReply) : (s.reply r).f = s.f := rfl
@[simp] theorem reply_cmd (s : State) (r : BusReply) : (s.reply r).cmd = s.cmd := rfl
@[simp] theorem reply_busy (s : State) (r : BusReply) : (s.reply r).busy = s.busy := rfl
@[simp] theorem reply_done (s : State) (r : BusReply) : (s.reply r).done = s.done := rfl
@[simp] theorem reply_err (s : State) (r : BusReply) : (s.reply r).err = s.err := rfl
@[simp] theorem reply_ovr (s : State) (r : BusReply) : (s.reply r).ovr = s.ovr := rfl
@[simp] theorem reply_werr (s : State) (r : BusReply) : (s.reply r).werr = s.werr := rfl
@[simp] theorem reply_ie (s : State) (r : BusReply) : (s.reply r).ie = s.ie := rfl
@[simp] theorem reply_errcode (s : State) (r : BusReply) : (s.reply r).errcode = s.errcode := rfl
@[simp] theorem reply_errreg (s : State) (r : BusReply) : (s.reply r).errreg = s.errreg := rfl
@[simp] theorem reply_seq (s : State) (r : BusReply) : (s.reply r).seq = s.seq := rfl
@[simp] theorem reply_engine (s : State) (r : BusReply) : (s.reply r).engine = s.engine := rfl
@[simp] theorem reply_bus (s : State) (r : BusReply) : (s.reply r).bus = s.bus := rfl
@[simp] theorem reply_sched (s : State) (r : BusReply) : (s.reply r).sched = s.sched := rfl
@[simp] theorem reply_replies (s : State) (r : BusReply) :
    (s.reply r).replies = r :: s.replies := rfl

end Sys2Proof.Laws
end

