-- ==== Sys2Proof/Laws/Bus.lean ====
section
/-! SUPPORT. The register window: its map, the words of a field register, and what an access can do. -/

namespace Sys2Proof.Laws

open Sys2Proof.Machine

/-- Every admitted access and its target (R52, R53, R54). -/
theorem busTarget_eq_some {size off : Nat} {t : BusTarget} :
    busTarget size off = some t ↔
      size = 4 ∧ ((off = 0x000 ∧ t = .cmd) ∨ (off = 0x004 ∧ t = .status) ∨
        (off = 0x008 ∧ t = .ctrl) ∨ ∃ i j, off = fieldOffset i j ∧ t = .field i j) := by
  constructor
  · intro h
    unfold busTarget at h
    split at h
    · next hs =>
      refine ⟨hs.1, ?_⟩
      unfold windowMap at h
      split at h
      · simp_all
      · split at h
        · simp_all
        · split at h
          · simp_all
          · split at h
            · next hr =>
              refine .inr (.inr (.inr ⟨_, _, ?_, (Option.some.inj h).symm⟩))
              have := hs.2
              simp only [fieldOffset, Fin.ofNat]
              omega
            · cases h
    · cases h
  · rintro ⟨rfl, ⟨rfl, rfl⟩ | ⟨rfl, rfl⟩ | ⟨rfl, rfl⟩ | ⟨i, j, rfl, rfl⟩⟩
    · rfl
    · rfl
    · rfl
    · revert i j; decide

@[simp] theorem busTarget_field (i : FReg) (j : Fin 8) :
    busTarget 4 (fieldOffset i j) = some (.field i j) :=
  busTarget_eq_some.2 ⟨rfl, .inr (.inr (.inr ⟨i, j, rfl, rfl⟩))⟩

@[simp] theorem busRead_field (s : State) (i : FReg) (j : Fin 8) :
    s.busRead (fieldOffset i j) = some (getWord (s.reg i) j) := by
  simp [State.busRead, State.readTarget]

@[simp] theorem busRead_cmd (s : State) : s.busRead 0x000 = some s.cmd := rfl

@[simp] theorem busRead_status (s : State) : s.busRead 0x004 = some s.statusWord := rfl

@[simp] theorem busRead_ctrl (s : State) : s.busRead 0x008 = some s.ctrlWord := rfl

/-- A bus address inside the window reaches the block at its offset (R50). -/
theorem windowOffset_base_add {off : Nat} (h : off ≤ 0x3FF) :
    windowOffset (Config.base + off) = some off := by
  unfold windowOffset
  rw [if_pos ⟨Nat.le_add_right _ _, by rw [show Config.windowSize = 1024 from rfl]; omega⟩,
    Nat.add_sub_cancel_left]

/-- A bus address outside it does not (R50). -/
theorem windowOffset_outside {addr : Nat}
    (h : addr < Config.base ∨ Config.base + 0x3FF < addr) : windowOffset addr = none := by
  unfold windowOffset
  exact if_neg fun h' => by rw [show Config.windowSize = 1024 from rfl] at h'; omega

/-! ## The words of a field register -/

theorem getWord_getLsbD (v : Word256) (j : Fin 8) (i : Nat) :
    (getWord v j).getLsbD i = (decide (i < 32) && v.getLsbD (wordShift j + i)) := by
  simp [getWord, BitVec.getLsbD_extractLsb']

theorem setWord_getLsbD (v : Word256) (j : Fin 8) (w : Word32) (i : Nat) :
    (setWord v j w).getLsbD i =
      if wordShift j ≤ i ∧ i < wordShift j + 32 then w.getLsbD (i - wordShift j)
      else v.getLsbD i := by
  have hj : wordShift j ≤ 224 := Nat.sub_le _ _
  simp only [setWord, BitVec.getLsbD_or, BitVec.getLsbD_and, BitVec.getLsbD_not,
    BitVec.getLsbD_shiftLeft, BitVec.getLsbD_setWidth, BitVec.getLsbD_allOnes]
  by_cases hi : i < 256
  · by_cases h1 : wordShift j ≤ i
    · by_cases h2 : i < wordShift j + 32
      · have h3 : i - wordShift j < 32 := by omega
        have h4 : i - wordShift j < 256 := by omega
        simp [hi, h1, h2, h3, h4, Nat.not_lt.2 h1]
      · have h3 : ¬ i - wordShift j < 32 := by omega
        rw [if_neg (by omega), BitVec.getLsbD_of_ge w _ (Nat.not_lt.1 h3)]
        simp [hi, h3]
    · rw [if_neg (by omega)]
      simp [hi, Nat.not_le.1 h1]
  · rw [if_neg (by omega)]
    simp [hi, BitVec.getLsbD_of_ge v i (Nat.not_lt.1 hi)]

/-- A word written is the word read (R55, R56). -/
@[simp] theorem getWord_setWord_self (v : Word256) (j : Fin 8) (w : Word32) :
    getWord (setWord v j w) j = w := by
  apply BitVec.eq_of_getLsbD_eq
  intro i hi
  rw [getWord_getLsbD, setWord_getLsbD, if_pos (by omega)]
  simp [hi]

/-- A word written leaves every other word alone (R55). -/
theorem getWord_setWord_ne (v : Word256) {j j' : Fin 8} (w : Word32) (h : j' ≠ j) :
    getWord (setWord v j w) j' = getWord v j' := by
  have hne : j'.val ≠ j.val := fun e => h (Fin.ext e)
  have hj := j.isLt
  have hj' := j'.isLt
  apply BitVec.eq_of_getLsbD_eq
  intro i hi
  simp only [getWord_getLsbD, setWord_getLsbD]
  rw [if_neg]
  simp only [wordShift]
  omega

theorem getWord_toNat (v : Word256) (j : Fin 8) :
    (getWord v j).toNat = v.toNat / 2 ^ wordShift j % 2 ^ 32 := by
  simp [getWord, Nat.shiftRight_eq_div_pow]

/-! ## What an access can do -/

/-- A delivered access: a bus error, a read that only replies, or a write to its target. -/
theorem busAccess_cases (a : BusAccess) (s : State) :
    (busTarget a.size a.offset = none ∧ busAccess a s = .fault (.busError a.offset a.size)) ∨
    (∃ t, busTarget a.size a.offset = some t ∧ a.op = .read ∧
      busAccess a s = .next (s.reply (.data (s.readTarget t)))) ∨
    (∃ t v, busTarget a.size a.offset = some t ∧ a.op = .write v ∧
      busAccess a s = .next ((s.writeTarget t v).reply .written)) := by
  unfold busAccess
  cases ht : busTarget a.size a.offset with
  | none => exact .inl ⟨rfl, rfl⟩
  | some t =>
    cases ho : a.op with
    | read => exact .inr (.inl ⟨t, rfl, rfl, rfl⟩)
    | write v => exact .inr (.inr ⟨t, v, rfl, rfl, rfl⟩)

/-- Every effect a write to the window can have (R25, R26, R33 to R35, R55, R57). -/
theorem writeTarget_cases (s : State) (t : BusTarget) (w : Word32) :
    (t = .cmd ∧ s.busy = false ∧ s.writeTarget t w = s.accept w) ∨
    (t = .cmd ∧ s.busy = true ∧ s.writeTarget t w = { s with ovr := true }) ∨
    (t = .status ∧ s.writeTarget t w = s) ∨
    (t = .ctrl ∧ w[2] = true ∧ s.writeTarget t w = s.blockReset) ∨
    (t = .ctrl ∧ w[2] = false ∧ w[1] = true ∧
      s.writeTarget t w = { s.clearStatus with ie := w[0] }) ∨
    (t = .ctrl ∧ w[2] = false ∧ w[1] = false ∧
      s.writeTarget t w = { s with ie := w[0] }) ∨
    (∃ i j, t = .field i j ∧ s.busy = false ∧
      s.writeTarget t w = { s with f := writeReg s.f i (setWord (s.reg i) j w) }) ∨
    (∃ i j, t = .field i j ∧ s.busy = true ∧ s.writeTarget t w = { s with werr := true }) := by
  cases t with
  | cmd => cases hb : s.busy <;> simp [State.writeTarget, State.writeCmd, hb]
  | status => simp [State.writeTarget]
  | ctrl =>
    cases h2 : w[2] <;> cases h1 : w[1] <;>
      simp only [State.writeTarget, State.writeCtrl, h1, h2] <;> simp
  | field i j => cases hb : s.busy <;> simp [State.writeTarget, State.writeFieldWord, hb]

end Sys2Proof.Laws
end

