-- ==== Sys2Proof/Laws/Decode.lean ====
section
/-! SUPPORT. The command word and its fields: putting fields together and taking them apart are
inverse to each other. -/

namespace Sys2Proof.Laws

theorem fieldsWord_toNat (op : BitVec 8) (d a b : FReg) :
    (encodeFields op d a b).toNat
      = op.toNat + 2 ^ 8 * d.val + 2 ^ 12 * a.val + 2 ^ 16 * b.val := by
  have hop := op.isLt
  have hd := d.isLt
  have ha := a.isLt
  have hb := b.isLt
  simp only [encodeFields, BitVec.toNat_or, BitVec.toNat_setWidth, BitVec.toNat_shiftLeft,
    BitVec.toNat_ofNat, Nat.shiftLeft_eq]
  rw [Nat.mod_eq_of_lt (a := op.toNat) (by omega), Nat.mod_eq_of_lt (a := d.val) (by omega),
    Nat.mod_eq_of_lt (a := a.val) (by omega), Nat.mod_eq_of_lt (a := b.val) (by omega),
    Nat.mod_eq_of_lt (by omega), Nat.mod_eq_of_lt (by omega), Nat.mod_eq_of_lt (by omega)]
  have h1 : op.toNat ||| d.val * 2 ^ 8 = op.toNat + 2 ^ 8 * d.val := by
    rw [Nat.or_comm, Nat.mul_comm, ← Nat.two_pow_add_eq_or_of_lt hop]; omega
  rw [h1]
  have h2 : (op.toNat + 2 ^ 8 * d.val) ||| a.val * 2 ^ 12
      = op.toNat + 2 ^ 8 * d.val + 2 ^ 12 * a.val := by
    rw [Nat.or_comm, Nat.mul_comm, ← Nat.two_pow_add_eq_or_of_lt (by omega)]; omega
  rw [h2]
  rw [Nat.or_comm, Nat.mul_comm, ← Nat.two_pow_add_eq_or_of_lt (by omega)]
  omega

theorem opField_toNat (w : Word32) : (opField w).toNat = w.toNat % 2 ^ 8 := by
  simp [opField]

theorem rdField_val (w : Word32) : (rdField w).val = w.toNat / 2 ^ 8 % 2 ^ 4 := by
  simp [rdField, Nat.shiftRight_eq_div_pow]

theorem raField_val (w : Word32) : (raField w).val = w.toNat / 2 ^ 12 % 2 ^ 4 := by
  simp [raField, Nat.shiftRight_eq_div_pow]

theorem rbField_val (w : Word32) : (rbField w).val = w.toNat / 2 ^ 16 % 2 ^ 4 := by
  simp [rbField, Nat.shiftRight_eq_div_pow]

theorem rsvField_toNat (w : Word32) : (rsvField w).toNat = w.toNat / 2 ^ 20 := by
  have := w.isLt
  simp [rsvField, Nat.shiftRight_eq_div_pow]
  omega

section
variable (op : BitVec 8) (d a b : FReg)

@[simp] theorem opField_encodeFields : opField (encodeFields op d a b) = op := by
  have hop := op.isLt
  apply BitVec.eq_of_toNat_eq
  rw [opField_toNat, fieldsWord_toNat]
  omega

@[simp] theorem rdField_encodeFields : rdField (encodeFields op d a b) = d := by
  have hop := op.isLt
  have hd := d.isLt
  apply Fin.ext
  rw [rdField_val, fieldsWord_toNat]
  omega

@[simp] theorem raField_encodeFields : raField (encodeFields op d a b) = a := by
  have hop := op.isLt
  have hd := d.isLt
  have ha := a.isLt
  apply Fin.ext
  rw [raField_val, fieldsWord_toNat]
  omega

@[simp] theorem rbField_encodeFields : rbField (encodeFields op d a b) = b := by
  have hop := op.isLt
  have hd := d.isLt
  have ha := a.isLt
  have hb := b.isLt
  apply Fin.ext
  rw [rbField_val, fieldsWord_toNat]
  omega

@[simp] theorem rsvField_encodeFields : rsvField (encodeFields op d a b) = 0 := by
  have hop := op.isLt
  have hd := d.isLt
  have ha := a.isLt
  have hb := b.isLt
  apply BitVec.eq_of_toNat_eq
  rw [rsvField_toNat, fieldsWord_toNat]
  simp
  omega

end

/-- A word whose RSV is 0 is its fields put together (R71, R73). -/
theorem encodeFields_fields {w : Word32} (h : rsvField w = 0) :
    encodeFields (opField w) (rdField w) (raField w) (rbField w) = w := by
  have hr : w.toNat / 2 ^ 20 = 0 := by rw [← rsvField_toNat, h]; rfl
  apply BitVec.eq_of_toNat_eq
  rw [fieldsWord_toNat, opField_toNat, rdField_val, raField_val, rbField_val]
  omega

/-- Decoding a word made of fields is decoding the fields. -/
theorem decode_encodeFields (op : BitVec 8) (d a b : FReg) :
    decode (encodeFields op d a b) = decodeFields op.toNat d a b := by
  simp [decode]

@[simp] theorem romSel_code (sel : RomSel) : romSel sel.code = some sel := by
  cases sel <;> rfl

theorem romSel_eq_some {v : FReg} {sel : RomSel} (h : romSel v = some sel) : v = sel.code := by
  fin_cases v <;> cases sel <;> first | rfl | simp [romSel] at h

theorem isEven_iff (r : FReg) : FReg.isEven r = true ↔ r.val % 2 = 0 := by
  simp [FReg.isEven]

/-! ## Masks (R77), field by field -/

/-- A masked comparison of words is the masked comparison of their five fields. -/
theorem and_eq_iff_fields (w m c : Word32) : w &&& m = c ↔
    opField w &&& opField m = opField c ∧
    w.extractLsb' 8 4 &&& m.extractLsb' 8 4 = c.extractLsb' 8 4 ∧
    w.extractLsb' 12 4 &&& m.extractLsb' 12 4 = c.extractLsb' 12 4 ∧
    w.extractLsb' 16 4 &&& m.extractLsb' 16 4 = c.extractLsb' 16 4 ∧
    rsvField w &&& rsvField m = rsvField c := by
  simp only [opField, rsvField, ← BitVec.extractLsb'_and]
  constructor
  · rintro rfl; simp
  · rintro ⟨h1, h2, h3, h4, h5⟩
    generalize w &&& m = x at *
    apply BitVec.eq_of_getLsbD_eq
    intro i hi
    have e (k n : Nat) (h : x.extractLsb' k n = c.extractLsb' k n) (hk : k ≤ i) (hn : i < k + n) :
        x.getLsbD i = c.getLsbD i := by
      have := congrArg (fun v => v.getLsbD (i - k)) h
      simpa [BitVec.getLsbD_extractLsb', show k + (i - k) = i by omega,
        show i - k < n by omega] using this
    by_cases i8 : i < 8
    · exact e _ _ h1 (by omega) (by omega)
    by_cases i12 : i < 12
    · exact e _ _ h2 (by omega) (by omega)
    by_cases i16 : i < 16
    · exact e _ _ h3 (by omega) (by omega)
    by_cases i20 : i < 20
    · exact e _ _ h4 (by omega) (by omega)
    · exact e _ _ h5 (by omega) (by omega)

/-- The test of a row of R77, whose mask covers OP and RSV: field by field. -/
theorem selects_iff_fields {w m c : Word32}
    (h : opField m = 0xFF ∧ rsvField m = 0xFFF ∧ rsvField c = 0) : w &&& m = c ↔
      rsvField w = 0 ∧ opField w = opField c ∧
      w.extractLsb' 8 4 &&& m.extractLsb' 8 4 = c.extractLsb' 8 4 ∧
      w.extractLsb' 12 4 &&& m.extractLsb' 12 4 = c.extractLsb' 12 4 ∧
      w.extractLsb' 16 4 &&& m.extractLsb' 16 4 = c.extractLsb' 16 4 := by
  have e8 (x : BitVec 8) : x &&& 0xFF = x := by
    rw [show (0xFF : BitVec 8) = BitVec.allOnes 8 by decide, BitVec.and_allOnes]
  have e12 (x : BitVec 12) : x &&& 0xFFF = x := by
    rw [show (0xFFF : BitVec 12) = BitVec.allOnes 12 by decide, BitVec.and_allOnes]
  rw [and_eq_iff_fields, h.1, h.2.1, h.2.2, e8, e12]
  tauto

/-- A mask of bit 0 of a register field asks that the number be even (R74). -/
theorem and_one_eq_zero (x : BitVec 4) : x &&& 1 = 0 ↔ FReg.isEven x.toFin = true := by
  revert x; decide

/-- A mask of a whole register field asks that it be 0. -/
theorem and_allFour_eq_zero (x : BitVec 4) : x &&& 15 = 0 ↔ x.toFin = (0 : FReg) := by
  revert x; decide

/-- LDC's mask of its RA field asks for a selector (R76). -/
theorem and_twelve_eq_zero (x : BitVec 4) : x &&& 12 = 0 ↔ ∃ sel, romSel x.toFin = some sel := by
  rw [show (∃ sel, romSel x.toFin = some sel) ↔ (romSel x.toFin).isSome = true by
    simp [Option.isSome_iff_exists]]
  revert x; decide

end Sys2Proof.Laws
end

