-- ==== Sys2Proof/Laws/Prime.lean ====
section
/-! SUPPORT. The modulus p is prime (R8, R14: "Because p is prime"), by a chain of Lucas
certificates: each prime is certified from the factors of its predecessor. -/

namespace Sys2Proof.Laws

/-- `b ^ e mod m` over the low `n` bits of the exponent. -/
def powMod (m b : Nat) : Nat → Nat → Nat
  | 0, _ => 1 % m
  | n + 1, e =>
    let h := powMod m b n (e / 2)
    if e % 2 = 1 then h * h % m * b % m else h * h % m

theorem powMod_eq (m b n e : Nat) (he : e < 2 ^ n) : powMod m b n e = b ^ e % m := by
  induction n generalizing e with
  | zero => simp [powMod, show e = 0 by simpa using he]
  | succ n ih =>
    have hh : powMod m b n (e / 2) = b ^ (e / 2) % m := ih _ (by omega)
    have hsq : (b ^ (e / 2) % m * (b ^ (e / 2) % m)) % m = b ^ (2 * (e / 2)) % m := by
      rw [← Nat.mul_mod, ← pow_add, two_mul]
    simp only [powMod, hh]
    split
    · next h =>
      rw [hsq, Nat.mod_mul_mod, ← pow_succ, show 2 * (e / 2) + 1 = e by omega]
    · next h => rw [hsq, show 2 * (e / 2) = e by omega]

/-- The conditions of a Lucas certificate: a witness `a` and the prime factors of `m - 1`. -/
def lucasCheck (m a : Nat) (fs : List Nat) : Bool :=
  1 < m && m < 2 ^ 256 && fs.prod == m - 1 && powMod m a 256 (m - 1) == 1 &&
    fs.all fun q => powMod m a 256 ((m - 1) / q) != 1

theorem prime_of_lucasCheck {m a : Nat} {fs : List Nat} (hfs : ∀ q ∈ fs, q.Prime)
    (h : lucasCheck m a fs = true) : m.Prime := by
  simp only [lucasCheck, Bool.and_eq_true, decide_eq_true_eq, beq_iff_eq, List.all_eq_true,
    bne_iff_ne, ne_eq] at h
  obtain ⟨⟨⟨⟨hm1, hm⟩, hprod⟩, hone⟩, hne⟩ := h
  have hcast (e : Nat) (he : e < 2 ^ 256) : (a : ZMod m) ^ e = 1 ↔ powMod m a 256 e = 1 := by
    rw [powMod_eq _ _ _ _ he, ← Nat.cast_pow, ← Nat.cast_one, ZMod.natCast_eq_natCast_iff',
      Nat.mod_eq_of_lt hm1]
  refine lucas_primality m a ((hcast _ (by omega)).2 hone) fun q hq hdvd => ?_
  rw [← hprod] at hdvd
  obtain ⟨r, hr, hqr⟩ := (Nat.Prime.prime hq).dvd_prod_iff.1 hdvd
  obtain rfl := (Nat.prime_dvd_prime_iff_eq hq (hfs r hr)).1 hqr
  rw [ne_eq, hcast _ (lt_of_le_of_lt (Nat.div_le_self _ _) (by omega))]
  exact hne q hr

theorem prime_13331831 : Nat.Prime 13331831 := by norm_num

theorem prime_173378833005251801 : Nat.Prime 173378833005251801 :=
  prime_of_lucasCheck (a := 6) (fs := [2, 2, 2, 5, 5, 2621, 24809, 13331831])
    (by intro q hq; fin_cases hq <;> norm_num) (by decide +kernel)

theorem prime_22149492674086928081353 : Nat.Prime 22149492674086928081353 :=
  prime_of_lucasCheck (a := 5) (fs := [2, 2, 2, 3, 5323, 173378833005251801])
    (by simp [prime_173378833005251801]; norm_num) (by decide +kernel)

theorem prime_132896956044521568488119 : Nat.Prime 132896956044521568488119 :=
  prime_of_lucasCheck (a := 6) (fs := [2, 3, 22149492674086928081353])
    (by simp [prime_22149492674086928081353]; norm_num) (by decide +kernel)

theorem prime_107590001 : Nat.Prime 107590001 := by norm_num

theorem prime_255515944373312847190720520512484175977 :
    Nat.Prime 255515944373312847190720520512484175977 :=
  prime_of_lucasCheck (a := 3)
    (fs := [2, 2, 2, 7, 7, 11, 1627, 2657, 4423, 41201, 96557, 7240687, 107590001])
    (by intro q hq; fin_cases hq <;> norm_num) (by decide +kernel)

theorem prime_largest_factor : Nat.Prime
    205115282021455665897114700593932402728804164701536103180137503955397371 :=
  prime_of_lucasCheck (a := 10)
    (fs := [2, 3, 5, 29, 29, 31, 7723, 132896956044521568488119,
      255515944373312847190720520512484175977])
    (by
      simp [prime_132896956044521568488119, prime_255515944373312847190720520512484175977]
      norm_num)
    (by decide +kernel)

/-- The modulus is prime (R8, R14). -/
theorem p_prime : Nat.Prime Config.p :=
  prime_of_lucasCheck (a := 3)
    (fs := [2, 3, 7, 13441,
      205115282021455665897114700593932402728804164701536103180137503955397371])
    (by simp [prime_largest_factor]; norm_num) (by decide +kernel)

/-- The modulus is prime, in the form in which Mathlib's field of residues asks for it. -/
theorem p_fact : Fact (Nat.Prime Config.p) := ⟨p_prime⟩

end Sys2Proof.Laws
end

