-- ==== Sys2Proof/Laws/Field.lean ====
section
/-! SUPPORT. The field functions of R14 as integers, and as the field of residues mod p. -/

namespace Sys2Proof.Laws

theorem p_pos : 0 < Config.p := by decide

theorem p_lt : Config.p < 2 ^ 256 := by decide

/-! ## As integers -/

theorem reduce_val (n : Nat) : (Fp.reduce n).val = n % Config.p := rfl

@[simp] theorem zero_val : Fp.zero.val = 0 := rfl

@[simp] theorem one_val : Fp.one.val = 1 := by decide

theorem addp_val (a b : Fp) : (addp a b).val = (a.val + b.val) % Config.p := rfl

theorem subp_val (a b : Fp) : (subp a b).val = (a.val + Config.p - b.val) % Config.p := rfl

theorem mulp_val (a b : Fp) : (mulp a b).val = a.val * b.val % Config.p := rfl

theorem subp_val_int (a b : Fp) : ((subp a b).val : Int) = ((a.val : Int) - b.val) % Config.p := by
  have hb := b.isLt
  have h : ((a.val + Config.p - b.val : Nat) : Int) = (a.val : Int) - b.val + Config.p := by omega
  rw [subp_val, Int.natCast_mod, h, Int.add_emod_right]

@[simp] theorem toWord_toNat (a : Fp) : (Fp.toWord a).toNat = a.val := by
  have := a.isLt
  have := p_lt
  simp only [Fp.toWord, BitVec.toNat_ofNat]
  exact Nat.mod_eq_of_lt (by omega)

theorem eq_zero_iff (a : Fp) : a = Fp.zero ↔ a.val = 0 := by
  rw [Fin.ext_iff, zero_val]

/-! ## As residues -/

/-- A field element in the ring of residues mod p. -/
def residue (a : Fp) : ZMod Config.p := (a.val : ZMod Config.p)

theorem residue_injective : Function.Injective residue := by
  intro a b h
  have h' := (ZMod.natCast_eq_natCast_iff' a.val b.val Config.p).1 h
  rw [Nat.mod_eq_of_lt a.isLt, Nat.mod_eq_of_lt b.isLt] at h'
  exact Fin.ext h'

/-- The normal form: a value cast to the residues is `residue`. -/
@[simp] theorem natCast_val (a : Fp) : (a.val : ZMod Config.p) = residue a := rfl

theorem residue_inj {a b : Fp} : residue a = residue b ↔ a = b := residue_injective.eq_iff

@[simp] theorem residue_reduce (n : Nat) : residue (Fp.reduce n) = (n : ZMod Config.p) := by
  simp [residue, reduce_val]

@[simp] theorem residue_zero : residue Fp.zero = 0 := by
  rw [Fp.zero, residue_reduce, Nat.cast_zero]

@[simp] theorem residue_one : residue Fp.one = 1 := by
  rw [Fp.one, residue_reduce, Nat.cast_one]

@[simp] theorem residue_addp (a b : Fp) : residue (addp a b) = residue a + residue b := by
  rw [addp, residue_reduce, Nat.cast_add, natCast_val, natCast_val]

@[simp] theorem residue_mulp (a b : Fp) : residue (mulp a b) = residue a * residue b := by
  rw [mulp, residue_reduce, Nat.cast_mul, natCast_val, natCast_val]

@[simp] theorem residue_subp (a b : Fp) : residue (subp a b) = residue a - residue b := by
  have hb := b.isLt
  rw [subp, residue_reduce, Nat.cast_sub (by omega)]
  simp

/-- A congruence of a field element's value is an equation of its residue. -/
theorem val_modEq_iff {r : Fp} {z : Int} :
    (r.val : Int) ≡ z [ZMOD Config.p] ↔ residue r = (z : ZMod Config.p) := by
  rw [← ZMod.intCast_eq_intCast_iff]; simp

theorem two_ne_zero_mod_p : (2 : ZMod Config.p) ≠ 0 := by
  intro h
  have h' : ((2 : Nat) : ZMod Config.p) = 0 := by exact_mod_cast h
  rw [ZMod.natCast_eq_zero_iff] at h'
  exact absurd (Nat.le_of_dvd (by decide) h') (by decide)

theorem residue_eq_zero {a : Fp} : residue a = 0 ↔ a = Fp.zero := by rw [← residue_zero, residue_inj]

/-! ## Square-and-multiply and the inverse -/

/-- The number whose bits, most significant first, are `bs`. -/
def bitsValue (bs : List Bool) : Nat := bs.foldl (fun n b => 2 * n + b.toNat) 0

theorem foldl_powpStep (b : Fp) (bs : List Bool) (acc : Fp) (n : Nat) (h : residue acc = residue b ^ n) :
    residue (bs.foldl (powpStep b) acc) = residue b ^ bs.foldl (fun n b => 2 * n + b.toNat) n := by
  induction bs generalizing acc n with
  | nil => exact h
  | cons c bs ih =>
    refine ih _ _ ?_
    cases c
    · simp [powpStep, h]; ring
    · simp [powpStep, h]; ring

theorem foldl_range_bits (k m j : Nat) (hm : m ≤ j) :
    ((List.range m).map fun i => k.testBit (j - 1 - i)).foldl (fun n b => 2 * n + b.toNat) 0
      = k % 2 ^ j / 2 ^ (j - m) := by
  induction m with
  | zero => simp
  | succ m ih =>
    rw [List.range_succ, List.map_append, List.foldl_append, ih (by omega)]
    obtain ⟨d, hd⟩ : ∃ d, j - m = d + 1 := ⟨j - m - 1, by omega⟩
    have hd1 : j - (m + 1) = d := by omega
    have hd2 : j - 1 - m = d := by omega
    have hb : (k.testBit d).toNat = k % 2 ^ j / 2 ^ d % 2 := by
      have : (k % 2 ^ j).testBit d = k.testBit d := by
        rw [Nat.testBit_mod_two_pow]; simp [show d < j by omega]
      rw [← this, Nat.toNat_testBit]
    simp only [List.map_cons, List.map_nil, List.foldl_cons, List.foldl_nil, hd, hd1, hd2, hb]
    rw [pow_succ, ← Nat.div_div_eq_div_mul]
    omega

/-- The 256 bits of R17, most significant first, are the value's. -/
theorem bitsValue_bitsMsbFirst (k : Word256) : bitsValue (bitsMsbFirst k) = k.toNat := by
  have h := foldl_range_bits k.toNat 256 256 (le_refl _)
  rw [bitsValue, bitsMsbFirst]
  simp only [BitVec.getLsbD] at *
  rw [h]
  simp [Nat.mod_eq_of_lt k.isLt]

@[simp] theorem residue_powp (b : Fp) (e : Word256) : residue (powp b e) = residue b ^ e.toNat := by
  rw [powp, foldl_powpStep b _ Fp.one 0 (by simp), ← bitsValue_bitsMsbFirst]
  rfl

variable [Fact (Nat.Prime Config.p)]

/-- The inverse of R14; at 0, which no command reaches, it is 0. -/
@[simp] theorem residue_invp (b : Fp) : residue (invp b) = (residue b)⁻¹ := by
  have he : (BitVec.ofNat 256 (Config.p - 2)).toNat = Config.p - 2 := by decide
  rw [invp, residue_powp, he]
  by_cases hb : residue b = 0
  · rw [hb, inv_zero, zero_pow (by decide)]
  · refine eq_inv_of_mul_eq_one_left ?_
    rw [← pow_succ, show Config.p - 2 + 1 = Config.p - 1 by decide]
    exact ZMod.pow_card_sub_one_eq_one hb

@[simp] theorem residue_divp (a b : Fp) : residue (divp a b) = residue a / residue b := by
  rw [divp, residue_mulp, residue_invp, div_eq_mul_inv]

theorem mulp_invp {b : Fp} (hb : b ≠ Fp.zero) : mulp b (invp b) = Fp.one := by
  rw [← residue_inj, residue_mulp, residue_invp, residue_one]
  exact mul_inv_cancel₀ fun h => hb (residue_eq_zero.1 h)

theorem mulp_divp (a : Fp) {b : Fp} (hb : b ≠ Fp.zero) : mulp (divp a b) b = a := by
  rw [← residue_inj, residue_mulp, residue_divp]
  exact div_mul_cancel₀ _ fun h => hb (residue_eq_zero.1 h)

end Sys2Proof.Laws
end

