-- ==== Sys2Proof/Laws/Ops.lean ====
section
/-! SUPPORT. The register file, the operand forms and completion: what each operation can do. -/

namespace Sys2Proof.Laws

open Sys2Proof.Machine

/-! ## The register file -/

@[simp] theorem writeRegs_nil (f : Vector Word256 16) : writeRegs f [] = f := rfl

@[simp] theorem writeRegs_cons (f : Vector Word256 16) (w : FReg × Word256) (ws : Writes) :
    writeRegs f (w :: ws) = writeRegs (writeReg f w.1 w.2) ws := rfl

@[simp] theorem readReg_writeReg_self (f : Vector Word256 16) (r : FReg) (v : Word256) :
    readReg (writeReg f r v) r = v := by simp [readReg, writeReg]

theorem readReg_writeReg_ne (f : Vector Word256 16) {r q : FReg} (v : Word256) (h : q ≠ r) :
    readReg (writeReg f r v) q = readReg f q := by
  have : r.val ≠ q.val := fun e => h (Fin.ext e.symm)
  simp [readReg, writeReg, this]

theorem readReg_replicate (v : Word256) (r : FReg) : readReg (Vector.replicate 16 v) r = v := by
  simp [readReg]

/-- Two register files that read alike are equal. -/
theorem regs_ext {f g : Vector Word256 16} (h : ∀ r, readReg f r = readReg g r) : f = g := by
  apply Vector.ext
  intro i hi
  exact h ⟨i, hi⟩

theorem pairReg_ne (r : FReg) : pairReg r ≠ r := by
  revert r; decide

theorem pairReg_val {r : FReg} (h : r.val % 2 = 0) : (pairReg r).val = r.val + 1 := by
  revert r; decide

/-- A write list changes no register it does not name (R45, R202). -/
theorem writeRegs_frame (ws : Writes) (f : Vector Word256 16) (q : FReg) (h : ∀ w ∈ ws, w.1 ≠ q) :
    readReg (writeRegs f ws) q = readReg f q := by
  induction ws generalizing f with
  | nil => rfl
  | cons w ws ih =>
    rw [writeRegs_cons, ih _ fun v hv => h v (List.mem_cons_of_mem _ hv),
      readReg_writeReg_ne _ _ (h w List.mem_cons_self).symm]

theorem writeRegs_field_self (f : Vector Word256 16) (r : FReg) (v : Fp) :
    (readReg (writeRegs f (fieldWrite r v)) r).toNat = v.val := by
  simp [fieldWrite]

theorem writeRegs_point_x (f : Vector Word256 16) (r : FReg) (P : Point) :
    (readReg (writeRegs f (pointWrite r P)) r).toNat = P.x.val := by
  simp only [pointWrite, writeRegs_cons, writeRegs_nil]
  rw [readReg_writeReg_ne _ _ (pairReg_ne r).symm, readReg_writeReg_self, toWord_toNat]

theorem writeRegs_point_y (f : Vector Word256 16) (r : FReg) (P : Point) :
    (readReg (writeRegs f (pointWrite r P)) (pairReg r)).toNat = P.y.val := by
  simp only [pointWrite, writeRegs_cons, writeRegs_nil]
  rw [readReg_writeReg_self, toWord_toNat]

theorem writeRegs_field_frame (f : Vector Word256 16) {r q : FReg} (v : Fp) (h : q ≠ r) :
    readReg (writeRegs f (fieldWrite r v)) q = readReg f q :=
  writeRegs_frame _ _ _ (by simp [fieldWrite, h.symm])

theorem writeRegs_point_frame (f : Vector Word256 16) {r q : FReg} (P : Point) (hx : q ≠ r)
    (hy : q ≠ pairReg r) : readReg (writeRegs f (pointWrite r P)) q = readReg f q :=
  writeRegs_frame _ _ _ (by simp [pointWrite, hx.symm, hy.symm])

/-! ## Operands -/

section
variable {ops : Vector Word256 16} {r : FReg}

theorem fieldOperand_ok (h : (readReg ops r).toNat < Config.p) :
    fieldOperand ops r = .ok ⟨(readReg ops r).toNat, h⟩ := dif_pos h

theorem fieldOperand_range (h : Config.p ≤ (readReg ops r).toNat) :
    fieldOperand ops r = .error (.range r) := dif_neg (Nat.not_lt.2 h)

theorem fieldOperand_eq_ok {a : Fp} : fieldOperand ops r = .ok a ↔ (readReg ops r).toNat = a.val := by
  by_cases h : (readReg ops r).toNat < Config.p
  · rw [fieldOperand_ok h, Except.ok.injEq, Fin.ext_iff]
  · rw [fieldOperand_range (Nat.not_lt.1 h)]
    have := a.isLt
    constructor
    · intro h'; cases h'
    · intro h'; omega

theorem pointOperand_eq_ok {P : Point} :
    pointOperand ops r = .ok P ↔ (readReg ops r).toNat = P.x.val ∧ (readReg ops (pairReg r)).toNat = P.y.val := by
  rw [← fieldOperand_eq_ok, ← fieldOperand_eq_ok, pointOperand]
  cases fieldOperand ops r with
  | error c => simp [bind, Except.bind]
  | ok x =>
    cases fieldOperand ops (pairReg r) with
    | error c => simp [bind, Except.bind]
    | ok y => cases P; simp [bind, Except.bind, pure, Except.pure]

theorem pointOperand_range_x (h : Config.p ≤ (readReg ops r).toNat) :
    pointOperand ops r = .error (.range r) := by
  simp [pointOperand, fieldOperand_range h, bind, Except.bind]

theorem pointOperand_range_y (hx : (readReg ops r).toNat < Config.p)
    (hy : Config.p ≤ (readReg ops (pairReg r)).toNat) :
    pointOperand ops r = .error (.range (pairReg r)) := by
  simp [pointOperand, fieldOperand_ok hx, fieldOperand_range hy, bind, Except.bind]

theorem divisorOperand_zero {b : Fp} (h : b.val = 0) : divisorOperand r b = .error (.divzero r) :=
  if_pos ((eq_zero_iff b).2 h)

theorem divisorOperand_ok {b : Fp} (h : b.val ≠ 0) : divisorOperand r b = .ok b :=
  if_neg fun e => h ((eq_zero_iff b).1 e)

end

/-! ## Completion -/

@[simp] theorem completeWith_ok (s : State) (ws : Writes) : s.completeWith (.ok ws) = s.completeOk ws :=
  rfl

@[simp] theorem completeWith_error (s : State) (c : CmdFault) :
    s.completeWith (.error c) = s.completeFault c := rfl

theorem completeCommand_wellFormed {i : Instr} (h : i.wellFormed = true) (x : Executed) (s : State) :
    completeCommand i x s = .next (s.completeWith x) := by
  simp [completeCommand, h]

@[simp] theorem operands_busy (s : State) {w : Word32} {ops : Vector Word256 16}
    (h : s.seq = .busy w ops) : s.operands = ops := by
  simp [State.operands, h]

theorem code_ne_zero (c : CmdFault) : c.code ≠ 0 := by
  cases c <;> simp [CmdFault.code]

end Sys2Proof.Laws
end

