-- ==== Sys2Proof/Laws/Point.lean ====
section
/-! SUPPORT. The point functions branch by branch (R131, R134, R135), and the engine's iterations
(R152). -/

namespace Sys2Proof.Laws

open Sys2Proof.Machine

theorem isIdentity_iff (P : Point) : P.isIdentity = true ↔ P = Point.identity := by
  cases P
  simp [Point.isIdentity, Point.identity]

@[simp] theorem isIdentity_identity : Point.identity.isIdentity = true := by decide

/-- The identity and every point with y = 0 double to the identity (R131, step 1). -/
theorem dbl_of_y_zero {P : Point} (h : P.y = Fp.zero) : dbl P = Point.identity := by
  simp [dbl, h]

@[simp] theorem dbl_identity : dbl Point.identity = Point.identity := dbl_of_y_zero rfl

/-- Steps 2 to 4 of doubling (R131). -/
theorem dbl_of_y_ne_zero {P : Point} (h : P.y ≠ Fp.zero) :
    dbl P = ⟨subp (mulp (tangentSlope P) (tangentSlope P)) (mulp (Fp.reduce 2) P.x),
      subp (mulp (tangentSlope P)
        (subp P.x (subp (mulp (tangentSlope P) (tangentSlope P)) (mulp (Fp.reduce 2) P.x)))) P.y⟩ := by
  have : P.isIdentity = false := by simp [Point.isIdentity, h]
  simp [dbl, this, h]

/-- Each branch of R134, with the condition under which it is reached. -/
@[simp] theorem padd_identity_left (Q : Point) : padd Point.identity Q = Q := by
  simp [padd, pairTag]

@[simp] theorem padd_identity_right (P : Point) : padd P Point.identity = P := by
  by_cases h : P.isIdentity = true
  · rw [(isIdentity_iff P).1 h, padd_identity_left]
  · simp [padd, pairTag, h]

theorem padd_same (P : Point) : padd P P = dbl P := by
  by_cases h : P = Point.identity
  · rw [h, padd_identity_left, dbl_identity]
  · have h' : P.isIdentity = false := by simpa [← isIdentity_iff] using h
    simp [padd, pairTag, h']

theorem padd_opposite {P Q : Point} (hP : P ≠ Point.identity) (hQ : Q ≠ Point.identity)
    (hne : P ≠ Q) (hx : P.x = Q.x) : padd P Q = Point.identity := by
  have h1 : P.isIdentity = false := by simpa [← isIdentity_iff] using hP
  have h2 : Q.isIdentity = false := by simpa [← isIdentity_iff] using hQ
  simp [padd, pairTag, h1, h2, hne, hx]

theorem padd_general {P Q : Point} (hP : P ≠ Point.identity) (hQ : Q ≠ Point.identity)
    (hx : P.x ≠ Q.x) : padd P Q = chordSum P Q := by
  have h1 : P.isIdentity = false := by simpa [← isIdentity_iff] using hP
  have h2 : Q.isIdentity = false := by simpa [← isIdentity_iff] using hQ
  have hne : P ≠ Q := fun e => hx (congrArg Point.x e)
  simp [padd, pairTag, h1, h2, hne, hx]

/-! ## The engine -/

@[simp] theorem run_zero (k : Word256) (B : Point) (e : Engine) : Engine.run k B 0 e = e := rfl

theorem run_succ (k : Word256) (B : Point) (n : Nat) (e : Engine) :
    Engine.run k B (n + 1) e = Engine.run k B n (Engine.iter k B e) := rfl

theorem run_add (k : Word256) (B : Point) (m n : Nat) (e : Engine) :
    Engine.run k B (m + n) e = Engine.run k B n (Engine.run k B m e) := by
  induction m generalizing e with
  | zero => simp
  | succ m ih => rw [Nat.succ_add, run_succ, ih, run_succ]

@[simp] theorem run_index (k : Word256) (B : Point) (n : Nat) (e : Engine) :
    (Engine.run k B n e).i = e.i + n := by
  induction n generalizing e with
  | zero => rfl
  | succ n ih => rw [run_succ, ih, Engine.iter]; simp only; omega

/-- An engine that has done its first iterations finishes as one that starts from the beginning. -/
theorem finish_of_run {k : Word256} {B : Point} {e : Engine} (hi : e.i ≤ 256)
    (he : e = Engine.run k B e.i Engine.init) : Engine.finish k B e = engine k B := by
  rw [engine, Engine.finish, Engine.finish]
  conv_lhs => rw [he]
  rw [run_index]
  simp only [Engine.init, Config.nbits, Nat.zero_add, Nat.sub_zero]
  rw [← run_add, Nat.add_sub_cancel' hi]

end Sys2Proof.Laws
end

