-- ==== Sys2Proof/Laws/Step.lean ====
section
/-! SUPPORT. What a command, a completion and a step can do, said once. -/

namespace Sys2Proof.Laws

open Sys2Proof.Machine

/-- What each command yields on a state's operands and engine (R44), gathered from the meanings. -/
def commandYields (i : Instr) (s : State) : Executed :=
  match i with
  | .nop => .ok []
  | .fadd rd ra rb => fieldBinary addp rd ra rb s.operands
  | .fsub rd ra rb => fieldBinary subp rd ra rb s.operands
  | .fmul rd ra rb => fieldBinary mulp rd ra rb s.operands
  | .fdiv rd ra rb => fdivYields rd ra rb s.operands
  | .finv rd ra => finvYields rd ra s.operands
  | .ldc rd sel => .ok [(rd, rom sel)]
  | .pdbl rd ra => pdblYields rd ra s.operands
  | .padd rd ra rb => paddYields rd ra rb s.operands
  | .smul rd ra rb => smulYields rd ra rb s.operands s.engineNow
  | .smulg rd ra => smulgYields rd ra s.operands s.engineNow

/-- Every command completes: with what it yields, or as ILLEGAL where its form is not admitted. -/
theorem exec_eq (i : Instr) (s : State) :
    exec i s = .next (s.completeWith (if i.wellFormed then commandYields i s else .error .illegal)) := by
  cases i <;> rfl

theorem exec_wellFormed {i : Instr} (h : i.wellFormed = true) (s : State) :
    exec i s = .next (s.completeWith (commandYields i s)) := by
  rw [exec_eq, if_pos h]

/-- A latched word completes with some result: results or a fault (R44). -/
theorem completeWord_cases (w : Word32) (s : State) :
    ∃ x, completeWord w s = .next (s.completeWith x) := by
  unfold completeWord
  cases decode w with
  | ok i => exact ⟨_, exec_eq i s⟩
  | error e => exact ⟨.error .illegal, rfl⟩

/-- The host's turn: nothing on the bus, or the first access is performed. -/
theorem hostTurn_cases (s : State) :
    (s.bus = [] ∧ hostTurn s = .next s) ∨
    ∃ a rest, s.bus = a :: rest ∧ hostTurn s = busAccess a { s with bus := rest } := by
  unfold hostTurn
  cases h : s.bus with
  | nil => exact .inl ⟨rfl, rfl⟩
  | cons a rest => exact .inr ⟨a, rest, rfl, rfl⟩

/-- The work turn: nothing, or one more iteration of the engine under the latched command. -/
theorem sequencerWork_cases (s : State) :
    sequencerWork s = s ∨
    ∃ w ops k B, s.seq = .busy w ops ∧ latchedJob w ops = some (k, B) ∧
      sequencerWork s = { s with engine := some (Engine.advance k B s.engineNow) } := by
  unfold sequencerWork
  cases hs : s.seq with
  | idle => exact .inl rfl
  | busy w ops =>
    simp only
    cases hj : latchedJob w ops with
    | none => exact .inl rfl
    | some kB => exact .inr ⟨w, ops, kB.1, kB.2, rfl, hj, rfl⟩

end Sys2Proof.Laws
end

