-- ==== Sys2Proof/Laws/Completion.lean ====
section
/-! SUPPORT. How a command ends, in the terms of Safety: completion with results, completion with a
fault, and what the shared shapes of the meanings yield. -/

namespace Sys2Proof.Laws

open Sys2Proof.Machine

theorem sameAround_completeWith (s : State) (x : Executed) : SameAround s (s.completeWith x) := by
  cases x <;> constructor <;> simp

theorem completedOk_completeOk (s : State) (ws : Writes) : CompletedOk s (s.completeOk ws) := by
  constructor
  case around => exact sameAround_completeWith s (.ok ws)
  all_goals simp

theorem faulted_completeFault (s : State) (c : CmdFault) :
    Faulted s (s.completeFault c) c.code c.reg.toFin := by
  constructor
  case around => exact sameAround_completeWith s (.error c)
  case errreg => rfl
  all_goals simp

/-- A completed command writes no register its write list does not name (R202). -/
theorem onlyWrites_completeOk (s : State) (ws : Writes) {rs : List FReg}
    (h : ∀ w ∈ ws, w.1 ∈ rs) : OnlyWrites s (s.completeOk ws) rs := by
  intro q hq
  rw [State.reg, completeOk_f]
  exact writeRegs_frame _ _ _ fun w hw e => hq (e ▸ h w hw)

theorem holdsPoint_completeOk (s : State) (d : FReg) (P : Point) :
    HoldsPoint (s.completeOk (pointWrite d P)).f d P :=
  ⟨writeRegs_point_x _ _ _, writeRegs_point_y _ _ _⟩

/-! ## exec, by what the command yields -/

section
variable {i : Instr} {s : State}

theorem exec_ok (hw : i.wellFormed = true) {ws : Writes} (h : commandYields i s = .ok ws) :
    exec i s = .next (s.completeOk ws) := by
  rw [exec_wellFormed hw, h]; rfl

theorem exec_error (hw : i.wellFormed = true) {c : CmdFault} (h : commandYields i s = .error c) :
    ∃ t, exec i s = .next t ∧ Faulted s t c.code c.reg.toFin :=
  ⟨_, by rw [exec_wellFormed hw, h]; rfl, faulted_completeFault s c⟩

end

/-! ## The shared shapes of the meanings -/

section
variable {ops : Vector Word256 16} {d a b : FReg}

/-- Two field operands, each in range or not (R100, R175). -/
theorem fieldBinary_eq (op : Fp → Fp → Fp) :
    fieldBinary op d a b ops =
      if ha : (readReg ops a).toNat < Config.p then
        if hb : (readReg ops b).toNat < Config.p then .ok (fieldWrite d (op ⟨_, ha⟩ ⟨_, hb⟩))
        else .error (.range b)
      else .error (.range a) := by
  unfold fieldBinary fieldOperand
  split
  · split <;> rfl
  · rfl

/-- FDIV's checks in order (R106, R178). -/
theorem fdivYields_eq :
    fdivYields d a b ops =
      if ha : (readReg ops a).toNat < Config.p then
        if hb : (readReg ops b).toNat < Config.p then
          if (readReg ops b).toNat = 0 then .error (.divzero b)
          else .ok (fieldWrite d (divp ⟨_, ha⟩ ⟨_, hb⟩))
        else .error (.range b)
      else .error (.range a) := by
  unfold fdivYields fieldOperand divisorOperand
  simp only [eq_zero_iff]
  split
  · split
    · by_cases h0 : (readReg ops b).toNat = 0
      · simp [bind, Except.bind, h0]
      · simp [bind, Except.bind, pure, Except.pure, h0]
    · rfl
  · rfl

/-- FINV's checks in order (R107, R178). -/
theorem finvYields_eq :
    finvYields d a ops =
      if ha : (readReg ops a).toNat < Config.p then
        if (readReg ops a).toNat = 0 then .error (.divzero a)
        else .ok (fieldWrite d (invp ⟨_, ha⟩))
      else .error (.range a) := by
  unfold finvYields fieldOperand divisorOperand
  simp only [eq_zero_iff]
  split
  · by_cases h0 : (readReg ops a).toNat = 0
    · simp [bind, Except.bind, h0]
    · simp [bind, Except.bind, pure, Except.pure, h0]
  · rfl

/-- A point operand, x checked before y (R130, R175). -/
theorem pointOperand_eq :
    pointOperand ops a =
      if hx : (readReg ops a).toNat < Config.p then
        if hy : (readReg ops (pairReg a)).toNat < Config.p then .ok ⟨⟨_, hx⟩, ⟨_, hy⟩⟩
        else .error (.range (pairReg a))
      else .error (.range a) := by
  unfold pointOperand fieldOperand
  split
  · split <;> rfl
  · rfl

end

end Sys2Proof.Laws
end

