-- ==== Sys2Proof/Laws/Moves.lean ====
section
/-! SUPPORT. What a step that gives a next state has done, in the terms of Safety: one of five moves,
and, where the move is a host access, one of eight effects. -/

namespace Sys2Proof.Laws

open Sys2Proof.Machine

/-- The state an access acts on differs from the state before the step only outside the block. -/
theorem nextAccess_eq {s s0 : State} {a : BusAccess} (h : NextAccess s a s0) :
    s0 = { s with bus := s0.bus, sched := s0.sched } := by
  obtain ⟨more, hb, ⟨rest, hs, rfl⟩ | ⟨hs, hq, rfl⟩⟩ := h <;> simp

theorem step_access {s s0 : State} {a : BusAccess} (h : NextAccess s a s0) :
    step s = busAccess a s0 := by
  obtain ⟨more, hb, ⟨rest, hs, rfl⟩ | ⟨hs, hq, rfl⟩⟩ := h
  · simp [step, hs, takeTurn, hostTurn, hb]
  · simp [step, hs, stepUnscheduled, hq, hostTurn, hb]

theorem nextCompletion_eq {s s0 : State} (h : NextCompletion s s0) :
    s0 = { s with sched := s0.sched } := by
  obtain ⟨rest, h, rfl⟩ | ⟨h, rfl⟩ := h <;> simp

theorem step_completion {s s0 : State} {w : Word32} {ops : Vector Word256 16}
    (hq : s.seq = .busy w ops) (h : NextCompletion s s0) : step s = completeWord w s0 := by
  obtain ⟨rest, h, rfl⟩ | ⟨h, rfl⟩ := h
  · simp [step, h, takeTurn, sequencerComplete, hq]
  · simp [step, h, stepUnscheduled, hq]

theorem seq_cases (s : State) : s.seq = .idle ∨ ∃ w ops, s.seq = .busy w ops := by
  cases s.seq with
  | idle => exact .inl rfl
  | busy w ops => exact .inr ⟨w, ops, rfl⟩

theorem sched_self {s : State} (h : s.sched = []) : ({ s with sched := [] } : State) = s := by
  cases s; cases h; rfl

/-- The five moves of a step: the turn passes with nothing done; an access reaches the block; the
command in progress completes; the sequencer works; the reset input. -/
theorem step_moves {s t : State} (ht : step s = .next t) :
    (∃ rest, t = { s with sched := rest }) ∨
    (∃ a s0, NextAccess s a s0 ∧ busAccess a s0 = .next t) ∨
    (∃ w ops s0 x, s.seq = .busy w ops ∧ NextCompletion s s0 ∧ t = s0.completeWith x) ∨
    (∃ rest, t = sequencerWork { s with sched := rest }) ∨
    (∃ rest, s.sched = .reset :: rest ∧ t = ({ s with sched := rest } : State).blockReset) := by
  unfold step at ht
  split at ht
  · next hs =>
    obtain hq | ⟨w, ops, hq⟩ := seq_cases s <;> simp only [stepUnscheduled, hq] at ht
    · obtain ⟨_, he⟩ | ⟨a, more, hb, he⟩ := hostTurn_cases s <;> rw [he] at ht
      · cases ht; exact .inl ⟨[], (sched_self hs).symm⟩
      · exact .inr (.inl ⟨a, _, ⟨more, hb, .inr ⟨hs, hq, rfl⟩⟩, ht⟩)
    · obtain ⟨x, hx⟩ := completeWord_cases w s
      rw [hx] at ht; cases ht
      exact .inr (.inr (.inl ⟨w, ops, s, x, hq, .inr ⟨hs, rfl⟩, rfl⟩))
  · next u rest hs =>
    cases u with
    | host =>
      simp only [takeTurn] at ht
      obtain ⟨_, he⟩ | ⟨a, more, hb, he⟩ := hostTurn_cases { s with sched := rest } <;> rw [he] at ht
      · cases ht; exact .inl ⟨rest, rfl⟩
      · exact .inr (.inl ⟨a, _, ⟨more, hb, .inl ⟨rest, hs, rfl⟩⟩, ht⟩)
    | work =>
      simp only [takeTurn] at ht; cases ht
      exact .inr (.inr (.inr (.inl ⟨rest, rfl⟩)))
    | complete =>
      obtain hq | ⟨w, ops, hq⟩ := seq_cases s <;> simp only [takeTurn, sequencerComplete, hq] at ht
      · cases ht; exact .inl ⟨rest, by rw [← hq]⟩
      · obtain ⟨x, hx⟩ := completeWord_cases w { s with sched := rest }
        rw [← hq, hx] at ht; cases ht
        exact .inr (.inr (.inl ⟨w, ops, _, x, hq, .inl ⟨rest, hs, rfl⟩, rfl⟩))
    | reset =>
      simp only [takeTurn] at ht; cases ht
      exact .inr (.inr (.inr (.inr ⟨rest, hs, rfl⟩)))

/-- The eight effects of an access that gets no bus error: only a reply (a read, or a write to STATUS);
an acceptance; a dropped command; a soft reset; a clear; a write of the enable; a field word written;
a dropped field word. -/
theorem busAccess_moves {a : BusAccess} {s t : State} (h : busAccess a s = .next t) :
    (∃ r, t = s.reply r) ∨
    (∃ w, a = memWrite 0x000 w ∧ s.busy = false ∧ t = (s.accept w).reply .written) ∨
    (∃ w, a = memWrite 0x000 w ∧ s.busy = true ∧
      t = ({ s with ovr := true } : State).reply .written) ∨
    (∃ w, a = memWrite 0x008 w ∧ w[2] = true ∧ t = s.blockReset.reply .written) ∨
    (∃ w, a = memWrite 0x008 w ∧ w[2] = false ∧ w[1] = true ∧
      t = ({ s.clearStatus with ie := w[0] } : State).reply .written) ∨
    (∃ w, a = memWrite 0x008 w ∧ w[2] = false ∧ w[1] = false ∧
      t = ({ s with ie := w[0] } : State).reply .written) ∨
    (∃ i j w, a = memWrite (fieldOffset i j) w ∧ s.busy = false ∧
      t = ({ s with f := writeReg s.f i (setWord (s.reg i) j w) } : State).reply .written) ∨
    (∃ i j w, a = memWrite (fieldOffset i j) w ∧ s.busy = true ∧
      t = ({ s with werr := true } : State).reply .written) := by
  rcases busAccess_cases a s with h1 | ⟨t', _, _, h1⟩ | ⟨t', v, ht', ho, h1⟩
  · rw [h1.2] at h; cases h
  · rw [h1] at h; cases h; exact .inl ⟨_, rfl⟩
  · rw [h1] at h; cases h
    obtain ⟨off, sz, op⟩ := a
    simp only at ht' ho
    subst ho
    obtain ⟨rfl, hh⟩ := busTarget_eq_some.1 ht'
    rcases writeTarget_cases s t' v with h' | h' | h' | h' | h' | h' | ⟨i, j, h'⟩ | ⟨i, j, h'⟩ <;>
      obtain ⟨rfl, h'⟩ := h' <;> simp at hh <;> subst hh
    · exact .inr (.inl ⟨v, rfl, h'.1, by rw [h'.2]⟩)
    · exact .inr (.inr (.inl ⟨v, rfl, h'.1, by rw [h'.2]⟩))
    · exact .inl ⟨.written, by rw [h']⟩
    · exact .inr (.inr (.inr (.inl ⟨v, rfl, h'.1, by rw [h'.2]⟩)))
    · exact .inr (.inr (.inr (.inr (.inl ⟨v, rfl, h'.1, h'.2.1, by rw [h'.2.2]⟩))))
    · exact .inr (.inr (.inr (.inr (.inr (.inl ⟨v, rfl, h'.1, h'.2.1, by rw [h'.2.2]⟩)))))
    · exact .inr (.inr (.inr (.inr (.inr (.inr (.inl ⟨i, j, v, rfl, h'.1, by rw [h'.2]⟩))))))
    · exact .inr (.inr (.inr (.inr (.inr (.inr (.inr ⟨i, j, v, rfl, h'.1, by rw [h'.2]⟩))))))

end Sys2Proof.Laws
end

