-- ==== Sys2Proof/Laws/PerInstr.lean ====
section
/-! SUPPORT. Laws stated for every command as syntax, one lemma per constructor. -/

namespace Sys2Proof.Laws

open Sys2Proof

/-- The OP field of a command's word is its opcode, and its RSV field is 0 (R71, R73, R77). -/
def OpAndRsv.Statement (i : Instr) : Prop :=
  opField (encode i) = i.opcode ∧ rsvField (encode i) = 0

theorem OpAndRsv.nop : OpAndRsv.Statement .nop := by
  simp [OpAndRsv.Statement, encode]

theorem OpAndRsv.fadd (rd ra rb : FReg) : OpAndRsv.Statement (.fadd rd ra rb) := by
  simp [OpAndRsv.Statement, encode]

theorem OpAndRsv.fsub (rd ra rb : FReg) : OpAndRsv.Statement (.fsub rd ra rb) := by
  simp [OpAndRsv.Statement, encode]

theorem OpAndRsv.fmul (rd ra rb : FReg) : OpAndRsv.Statement (.fmul rd ra rb) := by
  simp [OpAndRsv.Statement, encode]

theorem OpAndRsv.fdiv (rd ra rb : FReg) : OpAndRsv.Statement (.fdiv rd ra rb) := by
  simp [OpAndRsv.Statement, encode]

theorem OpAndRsv.finv (rd ra : FReg) : OpAndRsv.Statement (.finv rd ra) := by
  simp [OpAndRsv.Statement, encode]

theorem OpAndRsv.ldc (rd : FReg) (sel : RomSel) : OpAndRsv.Statement (.ldc rd sel) := by
  simp [OpAndRsv.Statement, encode]

theorem OpAndRsv.pdbl (rd ra : FReg) : OpAndRsv.Statement (.pdbl rd ra) := by
  simp [OpAndRsv.Statement, encode]

theorem OpAndRsv.padd (rd ra rb : FReg) : OpAndRsv.Statement (.padd rd ra rb) := by
  simp [OpAndRsv.Statement, encode]

theorem OpAndRsv.smul (rd ra rb : FReg) : OpAndRsv.Statement (.smul rd ra rb) := by
  simp [OpAndRsv.Statement, encode]

theorem OpAndRsv.smulg (rd ra : FReg) : OpAndRsv.Statement (.smulg rd ra) := by
  simp [OpAndRsv.Statement, encode]

end Sys2Proof.Laws
end

