-- ==== Sys2Proof/Tests/Slice0.lean ====
section
/-! SUPPORT. Tests: ill-formed terms, command words, one-step tests from the spec's own vectors
(95_test_vectors.md, the id in each comment), and, for every statement with hypotheses, a named witness
that meets them. -/

namespace Sys2Proof.Tests

-- One test at a time: the kernel checks of many at once take a thread's stack each.
set_option Elab.async false

open Sys2Proof.Machine Sys2Proof.Laws

/-! ## WellFormed refuses each ill-formed operand (R74) -/

theorem test_wf_pdbl_rd : (Instr.pdbl 1 0).wellFormed = false := by decide
theorem test_wf_pdbl_ra : (Instr.pdbl 0 3).wellFormed = false := by decide
theorem test_wf_padd_rd : (Instr.padd 15 0 2).wellFormed = false := by decide
theorem test_wf_padd_ra : (Instr.padd 4 7 2).wellFormed = false := by decide
theorem test_wf_padd_rb : (Instr.padd 4 0 3).wellFormed = false := by decide
theorem test_wf_smul_rd : (Instr.smul 3 0 4).wellFormed = false := by decide
theorem test_wf_smul_rb : (Instr.smul 2 0 5).wellFormed = false := by decide
theorem test_wf_smulg_rd : (Instr.smulg 9 0).wellFormed = false := by decide
theorem test_wf_odd_scalar_is_admitted : (Instr.smul 2 15 4).wellFormed = true := by decide

/-! ## Decoding -/

/-- The word of R71's drawing: RSV, RB, RA, RD, OP from bit 31 down. -/
def word (rsv : BitVec 12) (rb ra rd : BitVec 4) (op : BitVec 8) : Word32 :=
  rsv ++ rb ++ ra ++ rd ++ op

theorem test_decode_nop : decode (word 0 0 0 0 0b00000000) = .ok .nop := by decide
theorem test_decode_fadd : decode (word 0 0b0010 0b0001 0b0011 0b00000001) = .ok (.fadd 3 1 2) := by
  decide
theorem test_decode_fsub : decode (word 0 0b0000 0b0110 0b0110 0b00000010) = .ok (.fsub 6 6 0) := by
  decide
theorem test_decode_fmul : decode (word 0 0b0001 0b0000 0b0010 0b00000011) = .ok (.fmul 2 0 1) := by
  decide
theorem test_decode_fdiv : decode (word 0 0b0100 0b0011 0b0101 0b00000100) = .ok (.fdiv 5 3 4) := by
  decide
theorem test_decode_finv : decode (word 0 0b0000 0b1001 0b0010 0b00000101) = .ok (.finv 2 9) := by
  decide
theorem test_decode_ldc : decode (word 0 0b0000 0b0001 0b0000 0b00001000) = .ok (.ldc 0 .n) := by
  decide
theorem test_decode_pdbl : decode (word 0 0b0000 0b0000 0b0010 0b00010000) = .ok (.pdbl 2 0) := by
  decide
theorem test_decode_padd : decode (word 0 0b0010 0b0000 0b0100 0b00010001) = .ok (.padd 4 0 2) := by
  decide
theorem test_decode_smul : decode (word 0 0b0100 0b0000 0b0010 0b00100000) = .ok (.smul 2 0 4) := by
  decide
theorem test_decode_smulg : decode (word 0 0b0000 0b1111 0b0110 0b00100001) = .ok (.smulg 6 15) := by
  decide

/-- C6 to C16: every illegal word, with its cause (R79, R174). -/
theorem test_decode_illegal :
    decode 0x00004008 = .error .badSelector ∧ decode 0x00000006 = .error .undefinedOp ∧
    decode 0x00121301 = .error .reservedSet ∧ decode 0x00000110 = .error .oddPoint ∧
    decode 0x00030011 = .error .oddPoint ∧ decode 0x00019205 = .error .nonzeroField ∧
    decode 0x00000100 = .error .nonzeroField ∧ decode 0x0002F621 = .error .nonzeroField ∧
    decode 0x00050220 = .error .oddPoint ∧ decode 0x00013108 = .error .nonzeroField ∧
    decode 0xFFFFFFFF = .error .reservedSet := by decide

/-- Every row of R77 selects its own match word, and no other row does. -/
theorem test_opcode_rows_disjoint :
    opcodeTable.Pairwise (fun r q => r.mask &&& q.mask &&& (r.pattern ^^^ q.pattern) ≠ 0) := by
  decide

theorem test_decodeTableWord :
    decodeTableWord 32 0x00021301 = some (.fadd 3 1 2) ∧ decodeTableWord 32 0x00000006 = none := by
  decide

/-- R82. -/
theorem test_pseudo_instructions :
    encode (.fsqr 3 2) = encode (.fmul 3 2 2) ∧ encode (.fdbl 3 2) = encode (.fadd 3 2 2) ∧
    encode (.ptopub 6 15) = 0x0000F621 ∧ encode (.pmul 2 0 4) = 0x00040220 := by decide

/-- R81, R84. -/
theorem test_assembly :
    assembly (.padd 4 0 2) = "PADD P2, P0, P1" ∧ assembly (.smul 2 0 4) = "SMUL P1, F0, P2" ∧
    assembly (.ldc 1 .gy) = "LDC F1, GY" := by decide

/-! ## One command from reset -/

/-- The registers of reset with some of them set. -/
def regsOf (l : List (FReg × Nat)) : Vector Word256 16 :=
  l.foldl (fun f q => writeReg f q.1 (BitVec.ofNat 256 q.2)) (Vector.replicate 16 0)

/-- Reset, with some field registers set. -/
def stateWith (l : List (FReg × Nat)) : State := { State.reset with f := regsOf l }

/-- The step that completes command word `w` on the registers `l` leaves the registers `l` overwritten
by `writes`, STATUS reading `status`, and CMD reading `w`. -/
def completes (w : Nat) (l writes : List (FReg × Nat)) (status : Nat) : Bool :=
  match step ((stateWith l).withFetchWord 32 w) with
  | .next t => t.f == regsOf (l ++ writes) && t.statusWord.toNat == status && t.cmd.toNat == w
  | .fault _ => false
  | .refused _ => false

/-- 2G, 3G, 6G (E1, E2, S6) and the generator. -/
def g2x : Nat := 0xC6047F9441ED7D6D3045406E95C07CD85C778E4B8CEF3CA7ABAC09B95C709EE5
def g2y : Nat := 0x1AE168FEA63DC339A3C58419466CEAEEF7F632653266D0E1236431A950CFE52A
def g3x : Nat := 0xF9308A019258C31049344F85F89D5229B531C845836F99B08601F113BCE036F9
def g3y : Nat := 0x388F7B0F632DE8140FE337E62A37F3566500A99934C2231B6CB9FD7584B8E672
def g6x : Nat := 0xFFF97BD5755EEEA420453A14355235D382F6472F8568A18B2F057A1460297556
def g6y : Nat := 0xAE12777AACFBB620F3BE96017F45C560DE80F0F6518FE4A03C870C36B075F297

/-- V2. -/
theorem test_fadd_wraps :
    completes 0x00021301 [(1, Config.p - 1), (2, Config.p - 1)] [(3, Config.p - 2)] 2 = true := by
  decide +kernel
/-- V7. -/
theorem test_fadd_range_rb : completes 0x00021301 [(1, 1), (2, 2 ^ 256 - 1)] [] 0x2206 = true := by
  decide +kernel
/-- V8. -/
theorem test_fsub_borrows : completes 0x00021302 [(1, 0), (2, 1)] [(3, Config.p - 1)] 2 = true := by
  decide +kernel
/-- V13. -/
theorem test_fsub_range_ra_first :
    completes 0x00021302 [(1, Config.p), (2, Config.p)] [] 0x1206 = true := by decide +kernel
/-- M3: the product 2^256 is reduced, not truncated. -/
theorem test_fmul_reduces :
    completes 0x00010203 [(0, 2 ^ 255), (1, 2)] [(2, 0x1000003D1)] 2 = true := by decide +kernel
/-- M8. -/
theorem test_fmul_range : completes 0x00010203 [(0, 3), (1, Config.p)] [] 0x1206 = true := by
  decide +kernel
/-- D1. -/
theorem test_fdiv :
    completes 0x00010204 [(0, Config.gx), (1, Config.gy)]
      [(2, 0x2DB7DA16EF4BD6E01DFAAD38C11521CBC90DDA6DED1975FC41895C5D541F5127)] 2 = true := by
  decide +kernel
/-- D9: RANGE before DIVZERO. -/
theorem test_fdiv_range_first : completes 0x00021004 [(1, Config.p)] [] 0x1206 = true := by
  decide +kernel
/-- I7: in place. -/
theorem test_finv_in_place :
    completes 0x00009905 [(9, Config.gx)]
      [(9, 0x237AFDF1D2938D86870AAEB8AD77626A67B8E794ABFB076BE61D003687CA9EF6)] 2 = true := by
  decide +kernel
/-- I5. -/
theorem test_finv_zero : completes 0x00009205 [] [] 0x9306 = true := by decide +kernel
/-- C2. -/
theorem test_ldc_n :
    completes 0x00001008 []
      [(0, 0xFFFFFFFFFFFFFFFFFFFFFFFFFFFFFFFEBAAEDCE6AF48A03BBFD25E8CD0364141)] 2 = true := by
  decide +kernel
/-- C4. -/
theorem test_ldc_gy :
    completes 0x00003108 []
      [(1, 0x483ADA7726A3C4655DA4FBFC0E1108A8FD17B448A68554199C47D08FFB10D4B8)] 2 = true := by
  decide +kernel
/-- C5. -/
theorem test_nop : completes 0x00000000 [(7, 5)] [] 2 = true := by decide +kernel
/-- C16. -/
theorem test_illegal : completes 0xFFFFFFFF [(7, 5)] [] 0x0106 = true := by decide +kernel
/-- B1: the destination is the source. -/
theorem test_pdbl_in_place :
    completes 0x00000010 [(0, Config.gx), (1, Config.gy)] [(0, g2x), (1, g2y)] 2 = true := by
  decide +kernel
/-- B4: y = 0. -/
theorem test_pdbl_vertical : completes 0x00000210 [(0, 5)] [(2, 0), (3, 0)] 2 = true := by
  decide +kernel
/-- A5. -/
theorem test_padd_general :
    completes 0x00020411 [(0, Config.gx), (1, Config.gy), (2, g2x), (3, g2y)]
      [(4, g3x), (5, g3y)] 2 = true := by decide +kernel
/-- A14: the first out-of-range coordinate wins. -/
theorem test_padd_range_first :
    completes 0x00020411 [(0, Config.gx), (1, 2 ^ 256 - 1), (2, Config.p)] [] 0x1206 = true := by
  decide +kernel
/-- The step that completes SMUL P0, F0, P0 or SMULG P3, F15 from an engine that has come to bit
`255 - i` with the accumulator still the identity (S6's trace: every bit before it is 0). -/
def finishes (w : Nat) (l : List (FReg × Nat)) (i : Nat) (d : FReg) (x y : Nat) : Bool :=
  match step { (stateWith l).withFetchWord 32 w with engine := some ⟨Point.identity, i⟩ } with
  | .next t => (t.reg d).toNat == x && (t.reg (pairReg d)).toNat == y && t.statusWord == 2
  | .fault _ => false
  | .refused _ => false

/-- S17: the scalar 3 is the base's x. -/
theorem test_smul_aliased :
    finishes 0x00000020 [(0, 3), (1, Config.gy)] 254 0
      0xEB0CF20F547E1C25C95396ECC5DAE8385E20BBED40481B90F6142D2D4A687707
      0x3398BEF97396EE2F92046820792A22350AB0E1639678475DB53DBF011320BDBD = true := by
  decide +kernel
/-- S16: the base is checked whatever the scalar. -/
theorem test_smul_range : completes 0x00040220 [(4, Config.p)] [] 0x4206 = true := by decide +kernel
/-- S6, its last three iterations: G, 3G, 6G. -/
theorem test_smulg_six : finishes 0x0000F621 [(15, 6)] 253 6 g6x g6y = true := by decide +kernel

/-- S6, its first iterations: as long as the bits are 0 the accumulator stays the identity. -/
theorem test_smulg_six_leading_zeros (m : Nat) (hm : m ≤ 253) :
    Engine.run 6 Point.generator m Engine.init = ⟨Point.identity, m⟩ := by
  induction m with
  | zero => rfl
  | succ m ih =>
    have hbit : ∀ j < 253, (6 : Word256).getLsbD (255 - j) = false := fun j hj =>
      Nat.testBit_lt_two_pow (lt_of_lt_of_le (by norm_num : 6 < 2 ^ 3)
        (Nat.pow_le_pow_right (by norm_num) (by omega)))
    rw [run_add _ _ m 1, ih (by omega), run_succ, run_zero, Engine.iter, hbit m (by omega)]
    simp

/-! ## The register window -/

/-- The state after the host's access reaches the block, and what it reads of STATUS. -/
def afterAccess (s : State) (a : BusAccess) : Option State :=
  match step { s with bus := [a], sched := [.host] } with
  | .next t => some t
  | .fault _ => none
  | .refused _ => none

/-- H2, H3, and R54's offset of F15 word 3 (H4 prints 0x1EC, which by R54 is F7 word 3; log 13). -/
theorem test_field_word_offset :
    (afterAccess State.reset (memWrite 0x11C 0x12345678)).map (·.reg 0) = some 0x12345678 ∧
    (afterAccess State.reset (memWrite 0x100 0xDEADBEEF)).map (·.reg 0)
      = some (0xDEADBEEF <<< 224) ∧
    (afterAccess State.reset (memWrite 0x2EC 1)).map (·.reg 15) = some (2 ^ 128) ∧
    (afterAccess State.reset (memWrite 0x1EC 1)).map (·.reg 7) = some (2 ^ 128) := by decide +kernel
/-- H5. -/
theorem test_bus_errors :
    (∀ off ∈ [0x102, 0x00C, 0x0FC, 0x300], afterAccess State.reset (memWrite off 1) = none) ∧
      afterAccess State.reset ⟨0x100, 2, .read⟩ = none := by decide +kernel

/-- A block with PDBL P0, P0 in progress on G (H6, H8). -/
def busyPdbl : State := (stateWith [(0, Config.gx), (1, Config.gy)]).accept 0x00000010

/-- H6: the second command is dropped. -/
theorem test_dropped_command :
    (afterAccess busyPdbl (memWrite 0x000 0)).map (fun t => (t.statusWord, t.cmd))
      = some (0x00000009, 0x00000010) := by decide +kernel
/-- H8: the write is dropped and the read gives the committed word. -/
theorem test_dropped_field_write :
    (afterAccess busyPdbl (memWrite 0x100 0)).map (fun t => (t.statusWord, t.busRead 0x100))
      = some (0x00000011, some 0x79BE667E) := by decide +kernel
/-- H11: CLR keeps IE as the word says, and lowers irq. -/
theorem test_clear_lowers_irq :
    (afterAccess { State.reset with done := true, ie := true } (memWrite 0x008 3)).map
      (fun t => (t.irq, t.busRead 0x008)) = some (false, some 1) := by decide +kernel
/-- H12: SRST wins over IE, and abandons the command. -/
theorem test_soft_reset :
    (afterAccess { busyPdbl with ie := true } (memWrite 0x008 5)).map
      (fun t => { t with replies := [] }) = some State.reset := by decide +kernel
/-- H13. -/
theorem test_status_write_ignored :
    (afterAccess State.reset (memWrite 0x004 0xFFFFFFFF)).map State.statusWord = some 0 := by
  decide +kernel

/-- R58: the big-endian buffer's word j is the value's word j. -/
theorem test_buffer_words :
    let b : Vector (BitVec 8) 32 := Vector.ofFn fun i => BitVec.ofNat 8 (i.val + 1)
    ∀ j : Fin 8, bufferWord b j = getWord (bufferValue b) j := by decide +kernel

/-! ## Witnesses: for each statement with hypotheses, states and operands that meet them -/

theorem test_witness_DecodeOfEncodeIsTheCommand : (Instr.smul 14 15 14).wellFormed = true := by decide

theorem test_witness_EncodeOfDecodeIsTheWord : decode 0x000EFE20 = .ok (.smul 14 15 14) := by decide

theorem test_witness_WordsFollowTheOpcodeMap :
    (∃ row ∈ opcodeTable, (0x0000FE21 : Word32) &&& row.mask = row.pattern) ∧
      decode 0x0000FE21 = .ok (.smulg 14 15) := by decide

/-- A state with a word latched on the registers `l`, and a schedule. -/
def latched (w : Word32) (l : List (FReg × Nat)) (sched : List Turn) : State :=
  { (stateWith l).accept w with sched := sched }

/-- Both ways in which the next step completes the command in progress. -/
theorem test_nextCompletion (w : Word32) (l : List (FReg × Nat)) :
    NextCompletion (latched w l [.complete, .host]) (latched w l [.host]) ∧
      NextCompletion (latched w l []) (latched w l []) :=
  ⟨.inl ⟨[.host], rfl, rfl⟩, .inr ⟨rfl, rfl⟩⟩

theorem test_witness_IllegalWordsAreTheListed :
    (∀ row ∈ opcodeTable, (0x00100000 : Word32) &&& row.mask ≠ row.pattern) ∧
      (∃ s s0 ops, s.seq = .busy 0x00100000 ops ∧ NextCompletion s s0) :=
  ⟨by decide, _, _, _, rfl, (test_nextCompletion 0x00100000 []).1⟩

theorem test_witness_StepCompletesTheLatchedCommand :
    ∃ s s0 ops, s.seq = .busy 0x00000010 ops ∧ NextCompletion s s0 ∧
      decode 0x00000010 = .ok (.pdbl 0 0) :=
  ⟨_, _, _, rfl, (test_nextCompletion 0x00000010 [(0, Config.gx), (1, Config.gy)]).2, by decide⟩

/-- The next access of an IDLE block with nothing scheduled, and of a block with a command in
progress, by the schedule. -/
theorem test_nextAccess (a : BusAccess) :
    (∃ s s0, NextAccess s a s0 ∧ s.busy = false) ∧ (∃ s s0, NextAccess s a s0 ∧ s.busy = true) :=
  ⟨⟨{ State.reset with bus := [a] }, _, ⟨[], rfl, .inr ⟨rfl, rfl, rfl⟩⟩, rfl⟩,
    ⟨{ busyPdbl with bus := [a], sched := [.host] }, _, ⟨[], rfl, .inl ⟨[], rfl, rfl⟩⟩, rfl⟩⟩

theorem test_witness_NopCompletes :
    opField 0x00000100 = 0x00 ∧ (0x00000100 : Word32) ≠ 0 ∧
      ∃ s s0, NextAccess s (memWrite 0x000 0x00000000) s0 ∧ s.busy = false :=
  ⟨by decide, by decide, (test_nextAccess _).1⟩

/-- The two-operand clauses of FADD, FSUB and FMUL: RA out of range, RB out of range, both in range. -/
def TwoOperandClauses : Prop :=
  (∃ s : State, Config.p ≤ (s.operand 1).toNat) ∧
  (∃ s : State, (s.operand 1).toNat < Config.p ∧ Config.p ≤ (s.operand 2).toNat) ∧
  (∃ s : State, (s.operand 1).toNat < Config.p ∧ (s.operand 2).toNat < Config.p)

theorem test_two_operand_clauses : TwoOperandClauses :=
  ⟨⟨stateWith [(1, Config.p)], by decide +kernel⟩,
    ⟨stateWith [(1, Config.p - 1), (2, 2 ^ 256 - 1)], by decide +kernel⟩,
    ⟨stateWith [(1, Config.p - 1), (2, Config.p - 1)], by decide +kernel⟩⟩

theorem test_witness_FaddAddsModP : TwoOperandClauses := test_two_operand_clauses
theorem test_witness_FsubSubtractsModP : TwoOperandClauses := test_two_operand_clauses
theorem test_witness_FmulMultipliesModP : TwoOperandClauses := test_two_operand_clauses

theorem test_witness_FdivDividesModP :
    TwoOperandClauses ∧
    (∃ s : State, (s.operand 1).toNat < Config.p ∧ (s.operand 2).toNat = 0) ∧
    (∃ s : State, (s.operand 1).toNat < Config.p ∧ (s.operand 2).toNat < Config.p ∧
      (s.operand 2).toNat ≠ 0) :=
  ⟨test_two_operand_clauses, ⟨stateWith [(1, Config.p - 1)], by decide +kernel⟩,
    ⟨stateWith [(1, Config.p - 1), (2, 1)], by decide +kernel⟩⟩

theorem test_witness_FinvInvertsModP :
    (∃ s : State, Config.p ≤ (s.operand 9).toNat) ∧ (∃ s : State, (s.operand 9).toNat = 0) ∧
    (∃ s : State, (s.operand 9).toNat < Config.p ∧ (s.operand 9).toNat ≠ 0) :=
  ⟨⟨stateWith [(9, Config.p)], by decide +kernel⟩, ⟨State.reset, by decide +kernel⟩,
    ⟨stateWith [(9, Config.p - 1)], by decide +kernel⟩⟩

/-- Registers 14 and 15 hold the point with both coordinates p − 1. -/
theorem test_holdsPoint :
    HoldsPoint (stateWith [(14, Config.p - 1), (15, Config.p - 1)]).operands 14
      ⟨Fp.reduce (Config.p - 1), Fp.reduce (Config.p - 1)⟩ := by
  unfold HoldsPoint; decide +kernel

theorem test_witness_PdblDoublesThePoint :
    (14 : FReg).val % 2 = 0 ∧ (0 : FReg).val % 2 = 0 ∧
    (∃ s : State, Config.p ≤ (s.operand 14).toNat) ∧
    (∃ s : State, (s.operand 14).toNat < Config.p ∧ Config.p ≤ (s.operand (pairReg 14)).toNat) ∧
    (∃ (s : State) (P : Point), HoldsPoint s.operands 14 P) :=
  ⟨rfl, rfl, ⟨stateWith [(14, Config.p)], by decide +kernel⟩,
    ⟨stateWith [(14, 0), (15, Config.p)], by decide +kernel⟩, ⟨_, _, test_holdsPoint⟩⟩

theorem test_witness_PaddAddsThePoints :
    (2 : FReg).val % 2 = 0 ∧ (0 : FReg).val % 2 = 0 ∧ (14 : FReg).val % 2 = 0 ∧
    (∃ s : State, [(0 : FReg), pairReg 0, 14, pairReg 14] = [0, 1, 14] ++ 15 :: [] ∧
      (∀ q ∈ ([0, 1, 14] : List FReg), (s.operand q).toNat < Config.p) ∧
      Config.p ≤ (s.operand 15).toNat) ∧
    (∃ (s : State) (P Q : Point), HoldsPoint s.operands 0 P ∧ HoldsPoint s.operands 14 Q) :=
  ⟨rfl, rfl, rfl, ⟨stateWith [(0, Config.p - 1), (15, Config.p)], by decide +kernel⟩,
    ⟨_, Point.identity, _, by unfold HoldsPoint; decide +kernel, test_holdsPoint⟩⟩

/-- An engine that has done its first three iterations. -/
theorem test_engineFor (s : State) (k : Word256) (B : Point) :
    EngineFor { s with engine := some (Engine.run k B 3 Engine.init) } k B := by
  rintro e ⟨⟩
  exact ⟨by simp [Engine.init], by rw [run_index]; rfl⟩

theorem test_witness_SmulComputesTheScalarMultiple :
    (2 : FReg).val % 2 = 0 ∧ (14 : FReg).val % 2 = 0 ∧
    (∃ s : State, Config.p ≤ (s.operand 14).toNat) ∧
    (∃ s : State, (s.operand 14).toNat < Config.p ∧ Config.p ≤ (s.operand (pairReg 14)).toNat) ∧
    (∃ (s : State) (B : Point), HoldsPoint s.operands 14 B ∧ EngineFor s (s.operand 0) B) :=
  ⟨rfl, rfl, ⟨stateWith [(14, Config.p)], by decide +kernel⟩,
    ⟨stateWith [(14, 0), (15, Config.p)], by decide +kernel⟩,
    ⟨{ stateWith [(14, Config.p - 1), (15, Config.p - 1)] with
        engine := some (Engine.run 0 ⟨Fp.reduce (Config.p - 1), Fp.reduce (Config.p - 1)⟩ 3 Engine.init) },
      _, test_holdsPoint, by
        have h : (stateWith [(14, Config.p - 1), (15, Config.p - 1)]).operand 0 = 0 := by decide +kernel
        exact (congrArg (fun k => EngineFor _ k _) h.symm).mp (test_engineFor (stateWith _) 0 _)⟩⟩

theorem test_witness_SmulgComputesTheGeneratorMultiple :
    (6 : FReg).val % 2 = 0 ∧ ∃ (s : State) (G : Point),
      G.x.val = 0x79BE667EF9DCBBAC55A06295CE870B07029BFCDB2DCE28D959F2815B16F81798 ∧
      G.y.val = 0x483ADA7726A3C4655DA4FBFC0E1108A8FD17B448A68554199C47D08FFB10D4B8 ∧
      EngineFor s (s.operand 15) G :=
  ⟨rfl, _, Point.generator, by decide, by decide, test_engineFor (stateWith [(15, 6)]) _ _⟩

theorem test_witness_DividerLaws : Fp.one ≠ Fp.zero ∧ Fp.reduce (Config.p - 1) ≠ Fp.zero := by decide

theorem test_witness_DoublingFollowsTheTangent :
    (⟨Fp.reduce 5, Fp.zero⟩ : Point).y = Fp.zero ∧ Point.generator.y ≠ Fp.zero := by decide

/-- Every tag of R135 has a pair: A8, A1, A3, A10, A11. -/
theorem test_witness_AdditionFollowsTheDispatch :
    pairTag Point.identity Point.identity = .leftId ∧
    pairTag Point.generator Point.identity = .rightId ∧
    pairTag Point.generator Point.generator = .same ∧
    pairTag ⟨Fp.reduce Config.gx, Fp.reduce 5⟩ ⟨Fp.reduce Config.gx, Fp.reduce 7⟩ = .opposite ∧
    pairTag ⟨Fp.reduce 1, Fp.reduce 2⟩ ⟨Fp.reduce 3, Fp.reduce 5⟩ = .general := by decide

theorem test_witness_PointUnitsNeverDivideByZero :
    (⟨Fp.zero, Fp.one⟩ : Point).y ≠ Fp.zero ∧
    pairTag ⟨Fp.zero, Fp.one⟩ ⟨Fp.one, Fp.zero⟩ = .general := by decide

/-- 2G is a point of the curve's group (E2), and its pair of coordinates stands for it. -/
theorem test_represents_two_g :
    ∃ A : secp256k1.toAffine.Point, Represents ⟨Fp.reduce g2x, Fp.reduce g2y⟩ A := by
  have hp : Fact (Nat.Prime Config.p) := p_fact
  have heq : mulp (Fp.reduce g2y) (Fp.reduce g2y)
      = addp (mulp (mulp (Fp.reduce g2x) (Fp.reduce g2x)) (Fp.reduce g2x)) (Fp.reduce 7) := by
    decide +kernel
  have hy : residue (Fp.reduce g2y) ≠ 0 := fun e => absurd (residue_eq_zero.1 e) (by decide +kernel)
  have hr := congrArg residue heq
  simp only [residue_mulp, residue_addp] at hr
  have h7 : residue (Fp.reduce 7) = 7 := by simp
  have hns : secp256k1.toAffine.Nonsingular (residue (Fp.reduce g2x)) (residue (Fp.reduce g2y)) := by
    rw [WeierstrassCurve.Affine.nonsingular_iff, WeierstrassCurve.Affine.equation_iff]
    refine ⟨?_, .inr fun e => ?_⟩
    · simp only [secp256k1]
      linear_combination hr + h7
    · simp only [secp256k1] at e
      exact mul_ne_zero two_ne_zero_mod_p hy (by linear_combination e)
  exact ⟨.some _ _ hns, .inr ⟨hns, rfl⟩⟩

theorem test_witness_AdditionIsTheGroupLaw :
    Fact (Nat.Prime Config.p) ∧ ∃ (P Q : Point) (A B : secp256k1.toAffine.Point),
      Represents P A ∧ Represents Q B :=
  ⟨p_fact, by obtain ⟨A, h⟩ := test_represents_two_g; exact ⟨_, _, A, A, h, h⟩⟩

theorem test_witness_ScalarMultipleIsTheGroupMultiple :
    Fact (Nat.Prime Config.p) ∧ ∃ (B : Point) (A : secp256k1.toAffine.Point), Represents B A :=
  ⟨p_fact, _, test_represents_two_g⟩

theorem test_witness_EngineAgreesWithTheDocument : 256 ≤ 256 ∧ 0 ≤ 256 := by decide

theorem test_witness_RangeFaultNamesTheFirstOutOfRange :
    (14 : FReg).val % 2 = 0 ∧ (Instr.padd 2 0 14).wellFormed = true ∧
    (∃ s : State, rangeChecked (.padd 2 0 14) = [0, 1, 14] ++ 15 :: [] ∧
      (∀ q ∈ ([0, 1, 14] : List FReg), (s.operand q).toNat < Config.p) ∧
      Config.p ≤ (s.operand 15).toNat) ∧
    (∃ s t : State, exec (.fadd 0 0 0) s = .next t ∧ t.errcode = 2) :=
  ⟨rfl, by decide, ⟨stateWith [(0, Config.p - 1), (15, Config.p)], by decide +kernel⟩,
    ⟨stateWith [(0, Config.p)], _, rfl, by decide +kernel⟩⟩

theorem test_witness_DivzeroFaultIffZeroDivisor :
    (Instr.fdiv 0 1 2).wellFormed = true ∧ ∃ s t : State, exec (.fdiv 0 1 2) s = .next t ∧
      t.errcode = 3 :=
  ⟨rfl, stateWith [(1, Config.p - 1)], _, rfl, by decide +kernel⟩

theorem test_witness_FaultsArePrecise :
    ∃ s t : State, exec (.finv 2 9) s = .next t ∧ t.err = true :=
  ⟨State.reset, _, rfl, by decide +kernel⟩

theorem test_witness_CommandWritesOnlyItsDestination :
    ∃ s t : State, exec (.padd 4 0 2) s = .next t ∧ t.err = false :=
  ⟨busyPdbl, _, rfl, by decide +kernel⟩

theorem test_witness_CheckedCommandsComplete :
    (Instr.fdiv 5 3 4).wellFormed = true ∧ ∃ s : State,
      (∀ q ∈ rangeChecked (.fdiv 5 3 4), (s.operand q).toNat < Config.p) ∧
      ∀ r, divisorReg (.fdiv 5 3 4) = some r → (s.operand r).toNat ≠ 0 :=
  ⟨rfl, stateWith [(3, Config.p - 1), (4, 1)], by decide +kernel, by rintro r ⟨⟩; decide +kernel⟩

theorem test_witness_ResultsAreReduced :
    (∀ d sel, Instr.fadd 3 1 2 ≠ .ldc d sel) ∧ ∃ s t : State,
      exec (.fadd 3 1 2) s = .next t ∧ t.err = false ∧ 3 ∈ destRegs (.fadd 3 1 2) :=
  ⟨by simp, stateWith [(1, Config.p - 1), (2, Config.p - 1)], _, rfl, by decide +kernel⟩

/-- Two states that differ in STATUS, CTRL and how far the engine has come. -/
theorem test_witness_ResultsDependOnlyOnRegisters :
    ∃ s s' t t' : State, s ≠ s' ∧ s.f = s'.f ∧ s.operands = s'.operands ∧
      (∀ k B, engineJob (.smulg 6 15) s.operands = some (k, B) →
        EngineFor s k B ∧ EngineFor s' k B) ∧
      exec (.smulg 6 15) s = .next t ∧ exec (.smulg 6 15) s' = .next t' := by
  let s : State := { stateWith [(15, 6)] with ovr := true, ie := true }
  refine ⟨s, { stateWith [(15, 6)] with
      engine := some (Engine.run (s.operand 15) Point.generator 3 Engine.init) }, _, _,
    fun h => by simpa [s, stateWith, State.reset] using congrArg State.ovr h, rfl, rfl, ?_, rfl, rfl⟩
  rintro k B ⟨⟩
  refine ⟨?_, test_engineFor (stateWith [(15, 6)]) _ _⟩
  rintro e ⟨⟩

theorem test_witness_CmdWriteWhileBusyIsDropped :
    ∃ s s0, NextAccess s (memWrite 0x000 0) s0 ∧ s.busy = true := (test_nextAccess _).2

theorem test_witness_FieldWordWriteWhileIdle :
    ∃ s s0, NextAccess s (memWrite (0x100 + 32 * (15 : FReg).val + 4 * (7 : Fin 8).val) 1) s0 ∧
      s.busy = false := (test_nextAccess _).1

theorem test_witness_FieldWordWriteWhileBusyIsDropped :
    ∃ s s0, NextAccess s (memWrite (0x100 + 32 * (0 : FReg).val + 4 * (0 : Fin 8).val) 1) s0 ∧
      s.busy = true := (test_nextAccess _).2

theorem test_witness_FieldWordReadReturnsTheCommittedWord :
    ∃ s s0, NextAccess s (memRead (0x100 + 32 * (15 : FReg).val + 4 * (7 : Fin 8).val)) s0 ∧
      s.busy = true := (test_nextAccess _).2

theorem test_witness_ReadsHaveNoSideEffect :
    ∃ s s0 v, NextAccess s (memRead 0x2FC) s0 ∧ s.busRead 0x2FC = some v :=
  ⟨{ busyPdbl with bus := [memRead 0x2FC], sched := [.host] }, _, 0,
    ⟨[], rfl, .inl ⟨[], rfl, rfl⟩⟩, by decide +kernel⟩

/-- Each way an access is not admitted, and the first and last admitted field offsets. -/
theorem test_witness_BusErrorIffNotAdmitted :
    (∀ a ∈ ([⟨0x100, 2, .read⟩, ⟨0x102, 4, .read⟩, ⟨0x00C, 4, .read⟩, ⟨0x0FC, 4, .read⟩,
        ⟨0x300, 4, .read⟩] : List BusAccess), (∃ s s0, NextAccess s a s0) ∧
      (a.size ≠ 4 ∨ a.offset % 4 ≠ 0 ∨ ¬ (a.offset = 0x000 ∨ a.offset = 0x004 ∨ a.offset = 0x008 ∨
        (0x100 ≤ a.offset ∧ a.offset ≤ 0x2FF)))) ∧
    (∀ a ∈ ([memRead 0x008, memRead 0x100, memRead 0x2FC] : List BusAccess),
      (∃ s s0, NextAccess s a s0) ∧
      (a.size = 4 ∧ a.offset % 4 = 0 ∧ (a.offset = 0x000 ∨ a.offset = 0x004 ∨ a.offset = 0x008 ∨
        (0x100 ≤ a.offset ∧ a.offset ≤ 0x2FF)))) := by
  have h (a : BusAccess) : ∃ s s0, NextAccess s a s0 := by
    obtain ⟨s, s0, h, _⟩ := (test_nextAccess a).1
    exact ⟨s, s0, h⟩
  exact ⟨fun a ha => ⟨h a, by revert a; decide⟩, fun a ha => ⟨h a, by revert a; decide⟩⟩

theorem test_witness_StatusWordLayout :
    ∃ s s0, NextAccess s (memWrite 0x004 0xFFFFFFFF) s0 ∧ s.busy = true := (test_nextAccess _).2

theorem test_witness_CtrlClearClearsTheStatus :
    (∃ s s0, NextAccess s (memWrite 0x008 2) s0 ∧ s.busy = true) ∧
      (2 : Word32)[2] = false ∧ (2 : Word32)[1] = true := ⟨(test_nextAccess _).2, by decide⟩

theorem test_witness_CtrlWriteSetsTheEnable :
    (∃ s s0, NextAccess s (memWrite 0x008 0xFFFFFFF9) s0 ∧ s.busy = false) ∧
      (0xFFFFFFF9 : Word32)[2] = false ∧ (0xFFFFFFF9 : Word32)[1] = false ∧
    ∃ s s' s0 s0', NextAccess s (memWrite 0x008 0xFFFFFFF9) s0 ∧ NextAccess s' (memWrite 0x008 1) s0' ∧
      s0 = s0' ∧ (0xFFFFFFF9 : Word32) &&& 7 = 1 &&& 7 :=
  ⟨(test_nextAccess _).1, by decide, by decide,
    { State.reset with bus := [memWrite 0x008 0xFFFFFFF9] }, { State.reset with bus := [memWrite 0x008 1] },
    _, _, ⟨[], rfl, .inr ⟨rfl, rfl, rfl⟩⟩, ⟨[], rfl, .inr ⟨rfl, rfl, rfl⟩⟩, rfl, by decide⟩

theorem test_witness_ResetSourcesHaveOneEffect :
    (∃ s s0, NextAccess s (memWrite 0x008 5) s0 ∧ s.busy = true) ∧ (5 : Word32)[2] = true ∧
      ∃ s : State, s.sched = .reset :: [] :=
  ⟨(test_nextAccess _).2, by decide, { busyPdbl with sched := [.reset] }, rfl⟩

theorem test_witness_InterruptFollowsCompletion :
    (∃ s s0 t w ops, s.seq = .busy w ops ∧ NextCompletion s s0 ∧ step s = .next t) ∧
    (∃ s s0 t, NextAccess s (memWrite 0x008 0) s0 ∧ step s = .next t ∧ (0 : Word32)[0] = false) ∧
    (∃ s s0 t, NextAccess s (memWrite 0x000 0) s0 ∧ s.busy = false ∧ step s = .next t) ∧
    (∃ (s t : State), s.sched = .reset :: [] ∧ step s = .next t) :=
  ⟨⟨latched 0 [] [], _, _, _, _, rfl, .inr ⟨rfl, rfl⟩, rfl⟩,
    ⟨{ State.reset with bus := [memWrite 0x008 0] }, _, _, ⟨[], rfl, .inr ⟨rfl, rfl, rfl⟩⟩, rfl,
      by decide⟩,
    ⟨{ State.reset with bus := [memWrite 0x000 0] }, _, _, ⟨[], rfl, .inr ⟨rfl, rfl, rfl⟩⟩, rfl, rfl⟩,
    ⟨{ busyPdbl with sched := [.reset] }, _, rfl, rfl⟩⟩

theorem test_witness_WindowLiesAtBase :
    0x3FF ≤ 0x3FF ∧ ∃ addr, addr < Config.base ∨ Config.base + 0x3FF < addr :=
  ⟨le_refl _, Config.base + 0x400, .inr (by omega)⟩

theorem test_witness_EightWordWritesSetTheRegister :
    ∃ (s : State) (v : Word256) (more : List BusAccess), s.busy = false ∧ s.seq = .idle ∧
      s.sched = [] ∧ s.bus = hostWrf 15 v ++ more :=
  ⟨{ State.reset with bus := hostWrf 15 (BitVec.allOnes 256) ++ hostPoll }, _, _, rfl, rfl, rfl, rfl⟩

/-- A block with SMULG P3, F15 in progress, its engine three iterations on. -/
def busySmulg : State :=
  { latched 0x0000F621 [(15, 6)] [.work] with
    engine := some (Engine.run (BitVec.ofNat 256 6) Point.generator 3 Engine.init) }

theorem test_busySmulg_inv : Inv busySmulg where
  busy_iff := ⟨fun _ => ⟨_, _, rfl⟩, fun _ => rfl⟩
  err_iff := ⟨fun h => absurd h (by decide), fun h => absurd rfl h⟩
  busy_quiet := fun _ => ⟨rfl, rfl, rfl⟩
  err_done := fun h => absurd h (by decide)
  reg_quiet := fun _ => rfl
  code_named := by decide
  latched := by rintro w ops ⟨⟩; exact ⟨rfl, rfl⟩
  engine_held := by
    rintro e ⟨⟩
    refine ⟨0x0000F621, regsOf [(15, 6)], BitVec.ofNat 256 6, Point.generator, rfl, by decide +kernel,
      ?_, ?_⟩
    · simp [Engine.init]
    · rw [run_index]; rfl

theorem test_witness_CmdWriteWhileIdleIsAccepted :
    (∃ s s0, NextAccess s (memWrite 0x000 0xFFFFFFFF) s0 ∧ s.busy = false) ∧
      busySmulg.seq = .busy 0x0000F621 (regsOf [(15, 6)]) ∧ Inv busySmulg :=
  ⟨(test_nextAccess _).1, rfl, test_busySmulg_inv⟩

theorem test_witness_StepKeepsTheInvariant :
    ∃ s t : State, Inv s ∧ s.busy = true ∧ s.engine ≠ none ∧ step s = .next t :=
  ⟨busySmulg, _, test_busySmulg_inv, rfl, by simp [busySmulg], rfl⟩

/-- A dropped command sets OVR, a dropped field word sets WERR, CLR clears both. -/
theorem test_witness_StickyFlagsChangeOnlySo :
    (∃ s t : State, step s = .next t ∧ s.ovr = false ∧ t.ovr = true) ∧
    (∃ s t : State, step s = .next t ∧ s.werr = false ∧ t.werr = true) ∧
    (∃ s t : State, step s = .next t ∧ s.ovr = true ∧ t.ovr = false ∧ s.werr = true ∧
      t.werr = false) :=
  ⟨⟨{ busyPdbl with bus := [memWrite 0x000 0], sched := [.host] }, _, rfl, rfl, by decide +kernel⟩,
    ⟨{ busyPdbl with bus := [memWrite 0x2FC 0], sched := [.host] }, _, rfl, rfl, by decide +kernel⟩,
    ⟨{ busyPdbl with bus := [memWrite 0x008 2], sched := [.host], ovr := true, werr := true }, _, rfl,
      rfl, by decide +kernel, rfl, by decide +kernel⟩⟩

theorem test_witness_BusyChangesOnlySo :
    (∃ s t : State, step s = .next t ∧ s.busy = false ∧ t.busy = true) ∧
    (∃ s t : State, step s = .next t ∧ s.busy = true ∧ t.busy = false) :=
  ⟨⟨{ State.reset with bus := [memWrite 0x000 0x10] }, _, rfl, rfl, by decide +kernel⟩,
    ⟨busyPdbl, _, rfl, rfl, by decide +kernel⟩⟩

/-- A register changes by a host write, by a completion, and by a reset. -/
theorem test_witness_RegistersChangeOnlySo :
    (∃ s t : State, step s = .next t ∧ t.reg 15 ≠ s.reg 15 ∧ s.sched = []) ∧
    (∃ s t : State, step s = .next t ∧ t.reg 0 ≠ s.reg 0 ∧ s.busy = true ∧ s.sched = []) ∧
    (∃ s t : State, step s = .next t ∧ t.reg 0 ≠ s.reg 0 ∧ s.sched = [.reset]) :=
  ⟨⟨{ State.reset with bus := [memWrite 0x2FC 1] }, _, rfl, by decide +kernel, rfl⟩,
    ⟨busyPdbl, _, rfl, by decide +kernel, rfl, rfl⟩,
    ⟨{ busyPdbl with sched := [.reset] }, _, rfl, by decide +kernel, rfl⟩⟩

theorem test_witness_HiddenWorkIsInvisible :
    busySmulg.sched = .work :: [] ∧ busySmulg.busy = true := ⟨rfl, rfl⟩

theorem test_witness_EveryAcceptedCommandEnds :
    ∃ (s : State) (w : Word32) (ops : Vector Word256 16), s.busy = true ∧ s.seq = .busy w ops ∧
      s.sched = [.work, .host, .host] ∧
      ∀ a ∈ s.bus, busTarget a.size a.offset ≠ none :=
  ⟨{ busySmulg with sched := [.work, .host, .host], bus := [memRead 0x004, memWrite 0x008 2] }, _, _,
    rfl, rfl, rfl, by decide⟩

end Sys2Proof.Tests
end

/-! SUPPORT. The point functions on the curve `y² = x³ + 7` (R11, R140): read as residues, doubling and
addition are the operations of Mathlib's group of the curve. -/

namespace Sys2Proof.Proofs

open Sys2Proof.Machine Sys2Proof.Laws WeierstrassCurve.Affine

/-! ## The curve's own formulas -/

theorem natCast_ne_zero_mod_p {n : Nat} (h0 : 0 < n) (hn : n < Config.p) : (n : ZMod Config.p) ≠ 0 :=
  fun h => Nat.not_le.2 hn (Nat.le_of_dvd h0 ((ZMod.natCast_eq_zero_iff n Config.p).1 h))

theorem secp256k1_equation_iff (x y : ZMod Config.p) :
    secp256k1.toAffine.Equation x y ↔ y ^ 2 = x ^ 3 + 7 := by
  simp [equation_iff, secp256k1]

/-- The sentinel's coordinates are no point of the curve (R15). -/
theorem secp256k1_not_equation_zero : ¬ secp256k1.toAffine.Equation 0 0 := by
  rw [equation_zero]
  exact mod_cast natCast_ne_zero_mod_p (n := 7) (by decide) (by decide)

/-- The curve has no singular point, so every solution of its equation is a point of the group. -/
theorem secp256k1_Δ_ne_zero : secp256k1.Δ ≠ 0 := by
  have hΔ : secp256k1.Δ = -((21168 : Nat) : ZMod Config.p) := by
    simp only [WeierstrassCurve.Δ, WeierstrassCurve.b₂, WeierstrassCurve.b₄, WeierstrassCurve.b₆,
      WeierstrassCurve.b₈, secp256k1]
    norm_num
  rw [hΔ, neg_ne_zero]
  exact natCast_ne_zero_mod_p (by decide) (by decide)

theorem secp256k1_negY (x y : ZMod Config.p) : secp256k1.toAffine.negY x y = -y := by
  simp [negY, secp256k1]

theorem secp256k1_addX (x₁ x₂ l : ZMod Config.p) :
    secp256k1.toAffine.addX x₁ x₂ l = l ^ 2 - x₁ - x₂ := by
  simp [addX, secp256k1]

theorem secp256k1_addY (x₁ x₂ y₁ l : ZMod Config.p) :
    secp256k1.toAffine.addY x₁ x₂ y₁ l = l * (x₁ - (l ^ 2 - x₁ - x₂)) - y₁ := by
  simp only [addY, negAddY, secp256k1_addX, secp256k1_negY]
  ring

theorem eq_neg_self_iff_mod_p [Fact (Nat.Prime Config.p)] {y : ZMod Config.p} : y = -y ↔ y = 0 := by
  rw [eq_neg_iff_add_eq_zero, ← two_mul, mul_eq_zero, or_iff_right two_ne_zero_mod_p]

/-- The slope Mathlib's group law takes at a point with `y ≠ 0` is the tangent's (R131). -/
theorem secp256k1_slope_self [Fact (Nat.Prime Config.p)] {x y : ZMod Config.p} (hy : y ≠ 0) :
    secp256k1.toAffine.slope x x y y = 3 * x ^ 2 / (2 * y) := by
  rw [slope_of_Y_ne rfl (by rwa [secp256k1_negY, ne_eq, eq_neg_self_iff_mod_p]), secp256k1_negY]
  simp [secp256k1, two_mul]

/-! ## What a pair of coordinates stands for -/

theorem represents_identity : Represents Point.identity 0 := .inl ⟨rfl, rfl⟩

theorem represents_some {P : Point} {x y : ZMod Config.p} (h : secp256k1.toAffine.Nonsingular x y)
    (hx : residue P.x = x) (hy : residue P.y = y) : Represents P (.some x y h) := by
  subst hx hy
  exact .inr ⟨h, rfl⟩

/-- The sentinel and the affine points exclude each other. -/
theorem represents_cases {P : Point} {A : secp256k1.toAffine.Point} (h : Represents P A) :
    (P = Point.identity ∧ A = 0) ∨
    (P ≠ Point.identity ∧ ∃ hP, A = .some (residue P.x) (residue P.y) hP) := by
  obtain h | ⟨hP, rfl⟩ := h
  · exact .inl h
  · refine .inr ⟨?_, hP, rfl⟩
    rintro rfl
    refine secp256k1_not_equation_zero ?_
    simpa [Point.identity] using hP.1

/-- The model's test of the curve equation is the equation over the residues (R11). -/
theorem equation_of_onCurve {P : Point} (h : P.onCurve = true) :
    secp256k1.toAffine.Equation (residue P.x) (residue P.y) := by
  have hr := congrArg residue (eq_of_beq h)
  simp only [residue_mulp, residue_addp, residue_reduce, Nat.cast_ofNat] at hr
  rw [secp256k1_equation_iff]
  linear_combination hr

/-- Every pair of coordinates on the curve (R11) stands for a point other than the neutral one. -/
theorem exists_represents_of_onCurve {P : Point} (h : P.onCurve = true) :
    ∃ A : secp256k1.toAffine.Point, A ≠ 0 ∧ Represents P A :=
  have hP := (equation_iff_nonsingular_of_Δ_ne_zero secp256k1_Δ_ne_zero).1 (equation_of_onCurve h)
  ⟨.some _ _ hP, Point.some_ne_zero hP, represents_some hP rfl rfl⟩

section
variable [Fact (Nat.Prime Config.p)] {P Q : Point} {A A' : secp256k1.toAffine.Point}

/-! ## The point functions as residues -/

/-- The slope of R131 is the one Mathlib's group law takes at a point with `y ≠ 0`. -/
theorem residue_tangentSlope (hy : P.y ≠ Fp.zero) : residue (tangentSlope P) =
    secp256k1.toAffine.slope (residue P.x) (residue P.x) (residue P.y) (residue P.y) := by
  rw [secp256k1_slope_self fun e => hy (residue_eq_zero.1 e)]
  simp [tangentSlope, pow_two]

/-- The slope of R134 is the one Mathlib's group law takes at points of different x. -/
theorem residue_chordSlope (hx : P.x ≠ Q.x) : residue (chordSlope P Q) =
    secp256k1.toAffine.slope (residue P.x) (residue Q.x) (residue P.y) (residue Q.y) := by
  rw [slope_of_X_ne fun e => hx (residue_injective e)]
  simp [chordSlope]

/-! ## The group law -/

/-- Doubling (R131): the neutral element, a point with a vertical tangent, or the tangent's formulas. -/
theorem represents_dbl (h : Represents P A) : Represents (dbl P) (A + A) := by
  obtain ⟨rfl, rfl⟩ | ⟨-, hP, rfl⟩ := represents_cases h
  · rw [dbl_identity, add_zero]
    exact represents_identity
  by_cases hy : P.y = Fp.zero
  · have hneg : residue P.y = secp256k1.toAffine.negY (residue P.x) (residue P.y) := by
      rw [secp256k1_negY, hy, residue_zero, neg_zero]
    rw [dbl_of_y_zero hy, Point.add_self_of_Y_eq hneg]
    exact represents_identity
  · have hneg : residue P.y ≠ secp256k1.toAffine.negY (residue P.x) (residue P.y) := by
      rwa [secp256k1_negY, ne_eq, eq_neg_self_iff_mod_p, residue_eq_zero]
    rw [Point.add_self_of_Y_ne hneg, dbl_of_y_ne_zero hy]
    apply represents_some
    · rw [secp256k1_addX, ← residue_tangentSlope hy]
      simp only [residue_subp, residue_mulp, residue_reduce, Nat.cast_ofNat]
      ring
    · rw [secp256k1_addY, ← residue_tangentSlope hy]
      simp only [residue_subp, residue_mulp, residue_reduce, Nat.cast_ofNat]
      ring

/-- Two affine points with different x: the chord's formulas (R134). -/
theorem represents_chordSum (hx : P.x ≠ Q.x)
    {hP : secp256k1.toAffine.Nonsingular (residue P.x) (residue P.y)}
    {hQ : secp256k1.toAffine.Nonsingular (residue Q.x) (residue Q.y)} :
    Represents (chordSum P Q) (Point.some _ _ hP + .some _ _ hQ) := by
  rw [Point.add_of_X_ne fun e => hx (residue_injective e)]
  apply represents_some
  · rw [secp256k1_addX, ← residue_chordSlope hx]
    simp [chordSum, pow_two]
  · rw [secp256k1_addY, ← residue_chordSlope hx]
    simp [chordSum, pow_two]

/-- Two different affine points with one x are opposite (R134): the curve has no third y there. -/
theorem add_eq_zero_of_same_x (hne : P ≠ Q) (hx : P.x = Q.x)
    {hP : secp256k1.toAffine.Nonsingular (residue P.x) (residue P.y)}
    {hQ : secp256k1.toAffine.Nonsingular (residue Q.x) (residue Q.y)} :
    Point.some _ _ hP + .some _ _ hQ = 0 := by
  have hx' : residue P.x = residue Q.x := congrArg residue hx
  obtain hy | hy := Y_eq_of_X_eq hP.1 hQ.1 hx'
  · cases P
    cases Q
    exact absurd (Point.mk.injEq .. ▸ ⟨hx, residue_injective hy⟩) hne
  · exact Point.add_of_Y_eq hx' hy

/-- Addition, along the dispatch of R134. -/
theorem represents_padd (hP : Represents P A) (hQ : Represents Q A') :
    Represents (padd P Q) (A + A') := by
  obtain ⟨rfl, rfl⟩ | ⟨hPi, hPn, rfl⟩ := represents_cases hP
  · rwa [padd_identity_left, zero_add]
  obtain ⟨rfl, rfl⟩ | ⟨hQi, hQn, rfl⟩ := represents_cases hQ
  · rwa [padd_identity_right, add_zero]
  by_cases hx : P.x = Q.x
  · by_cases hPQ : P = Q
    · subst hPQ
      rw [padd_same]
      exact represents_dbl hP
    · rw [padd_opposite hPi hQi hPQ hx, add_eq_zero_of_same_x hPQ hx]
      exact represents_identity
  · rw [padd_general hPi hQi hx]
    exact represents_chordSum hx

end

end Sys2Proof.Proofs

/-! SUPPORT. Scalar multiplication (R151, R152): the document's loop and the engine's schedule are both
the plain double-and-add fold over the scalar's bits. -/

namespace Sys2Proof.Proofs

open Sys2Proof.Machine Sys2Proof.Laws

/-- One bit of double-and-add without a `started` flag: what an iteration of the engine does (R152). -/
def doubleAddStep (B acc : Point) (bit : Bool) : Point :=
  padd (dbl acc) (if bit then B else Point.identity)

/-- While nothing has started the accumulator is the identity, and doubling it changes nothing: the
`started` flag of R151 has no effect on the accumulator. -/
theorem pmulStep_of_started (B : Point) {st : Point × Bool} (bit : Bool)
    (h : st.2 = false → st.1 = Point.identity) :
    (pmulStep B st bit).1 = doubleAddStep B st.1 bit ∧
      ((pmulStep B st bit).2 = false → (pmulStep B st bit).1 = Point.identity) := by
  obtain ⟨acc, started⟩ := st
  cases started
  · obtain rfl : acc = Point.identity := h rfl
    cases bit <;> simp [pmulStep, doubleAddStep]
  · cases bit <;> simp [pmulStep, doubleAddStep]

theorem foldl_pmulStep_fst (B : Point) (bs : List Bool) {st : Point × Bool}
    (h : st.2 = false → st.1 = Point.identity) :
    (bs.foldl (pmulStep B) st).1 = bs.foldl (doubleAddStep B) st.1 := by
  induction bs generalizing st with
  | nil => rfl
  | cons b bs ih =>
    obtain ⟨hacc, hstarted⟩ := pmulStep_of_started B b h
    rw [List.foldl_cons, List.foldl_cons, ih hstarted, hacc]

theorem pmul_eq_foldl (k : Word256) (B : Point) :
    pmul k B = (bitsMsbFirst k).foldl (doubleAddStep B) Point.identity :=
  foldl_pmulStep_fst B _ fun _ => rfl

/-! ## The engine -/

theorem bitsMsbFirst_take_succ (k : Word256) {m : Nat} (hm : m < 256) :
    (bitsMsbFirst k).take (m + 1) = (bitsMsbFirst k).take m ++ [k.getLsbD (255 - m)] := by
  rw [List.take_succ_eq_append_getElem (by simpa [bitsMsbFirst] using hm)]
  simp [bitsMsbFirst]

/-- After `m` iterations the engine has folded the first `m` bits (R152, R153). -/
theorem run_init_acc (k : Word256) (B : Point) {m : Nat} (hm : m ≤ 256) :
    (Engine.run k B m Engine.init).acc =
      ((bitsMsbFirst k).take m).foldl (doubleAddStep B) Point.identity := by
  induction m with
  | zero => rfl
  | succ m ih =>
    rw [run_add, run_succ, run_zero, bitsMsbFirst_take_succ k (by omega), List.foldl_append,
      ← ih (by omega)]
    simp [Engine.iter, Engine.init, doubleAddStep]

/-- The engine's whole schedule returns the document's result (R153). -/
theorem engine_eq_pmul (k : Word256) (B : Point) : engine k B = pmul k B := by
  have hlen : (bitsMsbFirst k).length = 256 := by simp [bitsMsbFirst]
  rw [pmul_eq_foldl, ← List.take_of_length_le hlen.le]
  exact run_init_acc k B le_rfl

/-- Wherever the engine stands in its schedule, it finishes with the document's result (R152, log 4). -/
theorem finish_engineNow {s : State} {k : Word256} {B : Point} (h : EngineFor s k B) :
    Engine.finish k B s.engineNow = pmul k B := by
  rw [← engine_eq_pmul, State.engineNow]
  cases he : s.engine with
  | none => rfl
  | some e =>
    obtain ⟨hi, hrun⟩ := h e he
    exact finish_of_run hi hrun

/-! ## The multiple in the curve's group -/

section
variable [Fact (Nat.Prime Config.p)] {B : Point} {A : secp256k1.toAffine.Point}

/-- One bit of the scalar: the multiple doubles, and grows by the bit. -/
theorem represents_doubleAddStep (hB : Represents B A) {acc : Point} {n : Nat}
    (h : Represents acc (n • A)) (bit : Bool) :
    Represents (doubleAddStep B acc bit) ((2 * n + bit.toNat) • A) := by
  have hbit : Represents (if bit then B else Point.identity) (bit.toNat • A) := by
    cases bit
    · simpa using represents_identity
    · simpa using hB
  rw [add_nsmul, two_mul, add_nsmul]
  exact represents_padd (represents_dbl h) hbit

theorem represents_foldl_doubleAddStep (hB : Represents B A) (bs : List Bool) {acc : Point} {n : Nat}
    (h : Represents acc (n • A)) :
    Represents (bs.foldl (doubleAddStep B) acc) (bs.foldl (fun n b => 2 * n + b.toNat) n • A) := by
  induction bs generalizing acc n with
  | nil => exact h
  | cons b bs ih => exact ih (represents_doubleAddStep hB h b)

theorem represents_pmul (hB : Represents B A) (k : Word256) :
    Represents (pmul k B) (k.toNat • A) := by
  rw [pmul_eq_foldl, ← bitsValue_bitsMsbFirst]
  exact represents_foldl_doubleAddStep hB _ (by simpa using represents_identity)

end

end Sys2Proof.Proofs

/-! CERTIFICATE. The statements on the generator's multiple and on the curve's group. -/

namespace Sys2Proof.Proofs

open Sys2Proof.Machine Sys2Proof.Laws

/-- The generator is the one point with the coordinates of R10. -/
theorem eq_generator {G : Point} (hx : G.x.val = Config.gx) (hy : G.y.val = Config.gy) :
    G = Point.generator := by
  obtain ⟨x, y⟩ := G
  rw [Point.generator, Point.mk.injEq, Fin.ext_iff, Fin.ext_iff]
  exact ⟨hx, hy⟩

/-- A command that yields a point completes, and writes it to its destination pair and nowhere else. -/
theorem exec_pointWrite {i : Instr} {s : State} (hw : i.wellFormed = true) {d : FReg} {P : Point}
    (h : commandYields i s = .ok (pointWrite d P)) :
    ∃ t, exec i s = .next t ∧ CompletedOk s t ∧ OnlyWrites s t [d, pairReg d] ∧ HoldsPoint t.f d P :=
  ⟨_, exec_ok hw h, completedOk_completeOk s _, onlyWrites_completeOk s _ (by simp [pointWrite]),
    holdsPoint_completeOk s d P⟩

/-- Settles O17: SMULG yields what the engine finishes with, which is the document's multiple of the
generator. -/
theorem smulgComputesTheGeneratorMultiple : Obligations.SmulgComputesTheGeneratorMultiple := by
  intro s d k hd
  have hw : (Instr.smulg d k).wellFormed = true := (isEven_iff d).2 hd
  refine ⟨pairReg_val hd, ?_, fun G hx hy hG => exec_pointWrite hw ?_⟩
  · rw [decode_encodeFields]
    simp [decodeFields, (isEven_iff d).2 hd]
  · obtain rfl := eq_generator hx hy
    rw [← finish_engineNow hG]
    rfl

/-- Settles O26, by the case split of the group law. -/
theorem additionIsTheGroupLaw : Obligations.AdditionIsTheGroupLaw :=
  fun _ _ _ _ hP hQ => ⟨represents_padd hP hQ, represents_dbl hP⟩

/-- Settles O27, by induction on the scalar's bits; the generator's equation is computed. -/
theorem scalarMultipleIsTheGroupMultiple : Obligations.ScalarMultipleIsTheGroupMultiple :=
  ⟨fun k _ _ hB => represents_pmul hB k, exists_represents_of_onCurve (by decide +kernel)⟩

end Sys2Proof.Proofs

/-! SUPPORT. What a step can do to the block, said once, and that each of these effects keeps the
machine's invariant. -/

namespace Sys2Proof.Proofs

open Sys2Proof.Machine Sys2Proof.Laws

/-! ## The effects of a step -/

/-- Every effect of a step on the block, written on the state before it: the five moves of `step_moves`
with the eight effects of `busAccess_moves`. What is outside the block (`bus`, `sched`, `replies`) is
left open. -/
inductive StepEffect (s : State) : State → Prop where
  /-- nothing of the block changes: an idle turn, a read, or a write to STATUS -/
  | none (b : List BusAccess) (c : List Turn) (r : List BusReply) :
    StepEffect s { s with bus := b, sched := c, replies := r }
  /-- a command word is accepted (R43) -/
  | accept (w : Word32) (s0 : State) (b : List BusAccess) (c : List Turn) (r : List BusReply) :
    NextAccess s (memWrite 0x000 w) s0 → s.busy = false →
    StepEffect s { s.accept w with bus := b, sched := c, replies := r }
  /-- a command word is dropped (R30) -/
  | dropCommand (w : Word32) (s0 : State) (b : List BusAccess) (c : List Turn) (r : List BusReply) :
    NextAccess s (memWrite 0x000 w) s0 → s.busy = true →
    StepEffect s { s with ovr := true, bus := b, sched := c, replies := r }
  /-- the block is reset (R34, R200) -/
  | reset (b : List BusAccess) (c : List Turn) (r : List BusReply) :
    NextReset s → StepEffect s { s.blockReset with bus := b, sched := c, replies := r }
  /-- CTRL is written with CLR (R33) -/
  | clear (w : Word32) (s0 : State) (b : List BusAccess) (c : List Turn) (r : List BusReply) :
    NextAccess s (memWrite 0x008 w) s0 → w[1] = true →
    StepEffect s { s.clearStatus with ie := w[0], bus := b, sched := c, replies := r }
  /-- CTRL is written with neither CLR nor SRST (R35) -/
  | enable (e : Bool) (b : List BusAccess) (c : List Turn) (r : List BusReply) :
    StepEffect s { s with ie := e, bus := b, sched := c, replies := r }
  /-- a field word is written (R55) -/
  | fieldWord (i : FReg) (j : Fin 8) (w : Word32) (s0 : State) (b : List BusAccess) (c : List Turn)
      (r : List BusReply) :
    NextAccess s (memWrite (fieldOffset i j) w) s0 → s.busy = false →
    StepEffect s { s with f := writeReg s.f i (setWord (s.reg i) j w), bus := b, sched := c, replies := r }
  /-- a field word is dropped (R57) -/
  | dropFieldWord (i : FReg) (j : Fin 8) (w : Word32) (s0 : State) (b : List BusAccess) (c : List Turn)
      (r : List BusReply) :
    NextAccess s (memWrite (fieldOffset i j) w) s0 → s.busy = true →
    StepEffect s { s with werr := true, bus := b, sched := c, replies := r }
  /-- the command in progress completes (R44) -/
  | complete (w : Word32) (ops : Vector Word256 16) (s0 : State) (x : Executed) :
    s.seq = .busy w ops → NextCompletion s s0 → StepEffect s { s.completeWith x with sched := s0.sched }
  /-- the engine takes an iteration under the command in progress (R38) -/
  | work (w : Word32) (ops : Vector Word256 16) (k : Word256) (B : Point) (c : List Turn) :
    s.seq = .busy w ops → latchedJob w ops = some (k, B) →
    StepEffect s { s with engine := some (Engine.advance k B s.engineNow), sched := c }

theorem completeWith_sched (s : State) (c : List Turn) (x : Executed) :
    ({ s with sched := c } : State).completeWith x = { s.completeWith x with sched := c } := by
  cases x <;> rfl

theorem stepEffect_of_access {s s0 t : State} {a : BusAccess} (ha : NextAccess s a s0)
    (ht : busAccess a s0 = .next t) : StepEffect s t := by
  have hs0 := nextAccess_eq ha
  generalize s0.bus = b, s0.sched = c at hs0
  rcases busAccess_moves ht with ⟨r, rfl⟩ | ⟨w, rfl, hb, rfl⟩ | ⟨w, rfl, hb, rfl⟩ | ⟨w, rfl, h2, rfl⟩ |
    ⟨w, rfl, h2, h1, rfl⟩ | ⟨w, rfl, h2, h1, rfl⟩ | ⟨i, j, w, rfl, hb, rfl⟩ | ⟨i, j, w, rfl, hb, rfl⟩ <;>
    subst hs0
  · exact .none ..
  · exact .accept w _ _ _ _ ha hb
  · exact .dropCommand w _ _ _ _ ha hb
  · exact .reset _ _ _ (.inr ⟨w, _, ha, h2⟩)
  · exact .clear w _ _ _ _ ha h1
  · exact .enable ..
  · exact .fieldWord i j w _ _ _ _ ha hb
  · exact .dropFieldWord i j w _ _ _ _ ha hb

theorem step_effect {s t : State} (ht : step s = .next t) : StepEffect s t := by
  obtain ⟨c, rfl⟩ | ⟨a, s0, ha, ht⟩ | ⟨w, ops, s0, x, hq, hn, rfl⟩ | ⟨c, rfl⟩ | ⟨c, hc, rfl⟩ :=
    step_moves ht
  · exact .none ..
  · exact stepEffect_of_access ha ht
  · have h := StepEffect.complete w ops s0 x hq hn
    rwa [← completeWith_sched, ← nextCompletion_eq hn] at h
  · obtain h | ⟨w, ops, k, B, hq, hj, h⟩ := sequencerWork_cases { s with sched := c } <;> rw [h]
    · exact .none ..
    · exact .work w ops k B c hq hj
  · exact .reset _ _ _ (.inl ⟨c, hc⟩)

/-! ## The invariant, effect by effect -/

/-- The invariant says nothing of CTRL.IE, OVR, WERR and what is outside the block. -/
theorem inv_congr {s t : State} (h : Inv s) (ht : t = { s with
      ovr := t.ovr, werr := t.werr, ie := t.ie, bus := t.bus, sched := t.sched, replies := t.replies }) :
    Inv t := by
  rw [ht]
  exact ⟨h.busy_iff, h.err_iff, h.busy_quiet, h.err_done, h.reg_quiet, h.code_named, h.latched,
    h.engine_held⟩

theorem seq_ne_busy_of_idle {s : State} (h : Inv s) (hb : s.busy = false) (w : Word32)
    (ops : Vector Word256 16) : s.seq ≠ .busy w ops := fun hq => by
  have := h.busy_iff.2 ⟨w, ops, hq⟩
  simp [hb] at this

theorem inv_accept (s : State) (w : Word32) : Inv (s.accept w) := by
  constructor <;> simp

theorem inv_blockReset (s : State) : Inv s.blockReset := by
  constructor <;> simp

theorem inv_clearStatus {s : State} (h : Inv s) : Inv s.clearStatus where
  busy_iff := h.busy_iff
  latched := h.latched
  engine_held := h.engine_held
  err_iff := by simp
  busy_quiet := by simp
  err_done := by simp
  reg_quiet := by simp
  code_named := by simp

theorem inv_regs_of_idle {s : State} (h : Inv s) (hb : s.busy = false) (f : Vector Word256 16) :
    Inv { s with f := f } :=
  ⟨h.busy_iff, h.err_iff, h.busy_quiet, h.err_done, h.reg_quiet, h.code_named,
    fun w ops hq => absurd hq (seq_ne_busy_of_idle h hb w ops), h.engine_held⟩

theorem code_toNat_le (c : CmdFault) : c.code.toNat ≤ 3 := by
  cases c <;> simp [CmdFault.code]

theorem inv_completeWith (s : State) (x : Executed) : Inv (s.completeWith x) := by
  cases x with
  | ok ws => constructor <;> simp
  | error c =>
    have hne : ¬ c.code = 0#4 := code_ne_zero c
    constructor <;> simp [hne, code_toNat_le]

/-- The engine of a state that meets the invariant is in the schedule of the latched job (R38, R152). -/
theorem engineFor_of_inv {s : State} (h : Inv s) {w : Word32} {ops : Vector Word256 16} {k : Word256}
    {B : Point} (hq : s.seq = .busy w ops) (hj : latchedJob w ops = some (k, B)) : EngineFor s k B := by
  intro e he
  obtain ⟨w', ops', k', B', hq', hj', hrun⟩ := h.engine_held e he
  obtain ⟨rfl, rfl⟩ : w = w' ∧ ops = ops' := by simpa [hq] using hq'
  obtain ⟨rfl, rfl⟩ : k = k' ∧ B = B' := by simpa [hj] using hj'
  exact hrun

theorem engineNow_run {s : State} {k : Word256} {B : Point} (h : EngineFor s k B) :
    s.engineNow.i ≤ 256 ∧ s.engineNow = Engine.run k B s.engineNow.i Engine.init := by
  rw [State.engineNow]
  cases he : s.engine with
  | none => exact ⟨by decide, rfl⟩
  | some e => exact h e he

/-- One more iteration keeps the engine in its schedule (R152). -/
theorem advance_run {k : Word256} {B : Point} {e : Engine}
    (h : e.i ≤ 256 ∧ e = Engine.run k B e.i Engine.init) :
    (Engine.advance k B e).i ≤ 256 ∧
      Engine.advance k B e = Engine.run k B (Engine.advance k B e).i Engine.init := by
  obtain ⟨hi, he⟩ := h
  unfold Engine.advance
  split
  · next hlt =>
    refine ⟨hlt, ?_⟩
    calc Engine.iter k B e = Engine.iter k B (Engine.run k B e.i Engine.init) := by rw [← he]
      _ = Engine.run k B (e.i + 1) Engine.init := by rw [run_add, run_succ, run_zero]
  · exact ⟨hi, he⟩

theorem inv_work {s : State} (h : Inv s) {w : Word32} {ops : Vector Word256 16} {k : Word256} {B : Point}
    (hq : s.seq = .busy w ops) (hj : latchedJob w ops = some (k, B)) :
    Inv { s with engine := some (Engine.advance k B s.engineNow) } where
  busy_iff := h.busy_iff
  err_iff := h.err_iff
  busy_quiet := h.busy_quiet
  err_done := h.err_done
  reg_quiet := h.reg_quiet
  code_named := h.code_named
  latched := h.latched
  engine_held := by
    rintro e ⟨⟩
    exact ⟨w, ops, k, B, hq, hj, advance_run (engineNow_run (engineFor_of_inv h hq hj))⟩

end Sys2Proof.Proofs

/-! CERTIFICATE. The statements about every step: what it keeps, and what it can change. -/

namespace Sys2Proof.Proofs

open Sys2Proof.Machine Sys2Proof.Laws

/-- Settles O52, effect by effect. -/
theorem stepKeepsTheInvariant : Obligations.StepKeepsTheInvariant := by
  intro s t h ht
  cases step_effect ht with
  | none => exact inv_congr h rfl
  | accept w => exact inv_congr (inv_accept s w) rfl
  | dropCommand => exact inv_congr h rfl
  | reset => exact inv_congr (inv_blockReset s) rfl
  | clear => exact inv_congr (inv_clearStatus h) rfl
  | enable => exact inv_congr h rfl
  | fieldWord i j w _ _ _ _ _ hb => exact inv_congr (inv_regs_of_idle h hb _) rfl
  | dropFieldWord => exact inv_congr h rfl
  | complete w ops s0 x => exact inv_congr (inv_completeWith s x) rfl
  | work w ops k B c hq hj => exact inv_congr (inv_work h hq hj) rfl

/-- Settles O51: reset is the reset of any block. -/
theorem resetMeetsTheInvariant : Obligations.ResetMeetsTheInvariant :=
  inv_blockReset State.reset

section
variable {s t : State} (ht : step s = .next t)
include ht

theorem dropped_command_of_step_sets_ovr (h : s.ovr = false) (h' : t.ovr = true) :
    s.busy = true ∧ ∃ w s0, NextAccess s (memWrite 0x000 w) s0 := by
  cases step_effect ht with
  | dropCommand w s0 _ _ _ ha hb => exact ⟨hb, w, s0, ha⟩
  | complete w ops s0 x => rw [(sameAround_completeWith s x).ovr, h] at h'; cases h'
  | _ => simp [h] at h'

theorem dropped_word_of_step_sets_werr (h : s.werr = false) (h' : t.werr = true) :
    s.busy = true ∧ ∃ i j v s0, NextAccess s (memWrite (fieldOffset i j) v) s0 := by
  cases step_effect ht with
  | dropFieldWord i j w s0 _ _ _ ha hb => exact ⟨hb, i, j, w, s0, ha⟩
  | complete w ops s0 x => rw [(sameAround_completeWith s x).werr, h] at h'; cases h'
  | _ => simp [h] at h'

theorem clear_of_step_clears_sticky
    (h : (s.ovr = true ∧ t.ovr = false) ∨ (s.werr = true ∧ t.werr = false)) :
    NextReset s ∨ ∃ w s0, NextAccess s (memWrite 0x008 w) s0 ∧ w[1] = true := by
  cases step_effect ht with
  | reset _ _ _ hr => exact .inl hr
  | clear w s0 _ _ _ ha h1 => exact .inr ⟨w, s0, ha, h1⟩
  | complete w ops s0 x =>
    obtain ⟨-, -, hovr, hwerr, -⟩ := sameAround_completeWith s x
    simp only [hovr, hwerr] at h
    simp at h
  | _ => simp at h

theorem acceptance_of_step_sets_busy (h : s.busy = false) (h' : t.busy = true) :
    ∃ w s0, NextAccess s (memWrite 0x000 w) s0 ∧ t.cmd = w ∧ t.seq = .busy w s.f := by
  cases step_effect ht with
  | accept w s0 _ _ _ ha => exact ⟨w, s0, ha, rfl, rfl⟩
  | complete w ops s0 x => cases x <;> simp at h'
  | _ => simp [h] at h'

theorem completion_of_step_clears_busy (h : s.busy = true) (h' : t.busy = false) :
    NextReset s ∨ ∃ w ops s0, s.seq = .busy w ops ∧ NextCompletion s s0 := by
  cases step_effect ht with
  | reset _ _ _ hr => exact .inl hr
  | complete w ops s0 x hq hn => exact .inr ⟨w, ops, s0, hq, hn⟩
  | _ => simp [h] at h'

end

/-- Settles O53: the three clauses, each read off from the effects of a step. -/
theorem stickyFlagsChangeOnlySo : Obligations.StickyFlagsChangeOnlySo := fun _ _ ht =>
  ⟨dropped_command_of_step_sets_ovr ht, dropped_word_of_step_sets_werr ht, clear_of_step_clears_sticky ht⟩

/-- Settles O54: only an acceptance raises BUSY, only a completion or a reset lets it fall. -/
theorem busyChangesOnlySo : Obligations.BusyChangesOnlySo := fun _ _ ht =>
  ⟨acceptance_of_step_sets_busy ht, completion_of_step_clears_busy ht⟩

/-- Settles O55: a field word written is of the register that changed. -/
theorem registersChangeOnlySo : Obligations.RegistersChangeOnlySo := by
  intro s t r ht hne
  cases step_effect ht with
  | reset _ _ _ hr => exact .inl hr
  | fieldWord i j w s0 _ _ _ ha hb =>
    obtain rfl : r = i := by
      by_contra hri
      exact hne (readReg_writeReg_ne _ _ hri)
    exact .inr (.inl ⟨hb, j, w, s0, ha⟩)
  | complete w ops s0 x hq hn => exact .inr (.inr ⟨w, ops, s0, hq, hn⟩)
  | _ => exact absurd rfl hne

end Sys2Proof.Proofs

/-! SUPPORT. What a command yields, for every command: the registers it writes, when it passes its
checks, and what it depends on. -/

namespace Sys2Proof.Proofs

open Sys2Proof.Machine Sys2Proof.Laws

/-! ## What a command writes (R202) -/

/-- A result that is no fault names no register outside the list. -/
def NamesOnly (rs : List FReg) (x : Executed) : Prop := ∀ ws, x = .ok ws → ∀ w ∈ ws, w.1 ∈ rs

/-- A check before a result adds no register to it. -/
theorem namesOnly_bind {α : Type} {rs : List FReg} (x : Except CmdFault α) {g : α → Executed}
    (h : ∀ a, NamesOnly rs (g a)) : NamesOnly rs (x >>= g) := by
  cases x with
  | ok a => exact h a
  | error c => rintro ws ⟨⟩

theorem namesOnly_fieldWrite (d : FReg) (v : Fp) : NamesOnly [d] (.ok (fieldWrite d v)) := by
  rintro ws ⟨⟩
  simp [fieldWrite]

theorem namesOnly_pointWrite (d : FReg) (P : Point) : NamesOnly [d, pairReg d] (.ok (pointWrite d P)) := by
  rintro ws ⟨⟩
  simp [pointWrite]

theorem commandYields_namesOnly (i : Instr) (s : State) : NamesOnly (destRegs i) (commandYields i s) := by
  cases i with
  | nop => rintro ws ⟨⟩; simp
  | fadd d | fsub d | fmul d =>
    exact namesOnly_bind _ fun _ => namesOnly_bind _ fun _ => namesOnly_fieldWrite d _
  | fdiv d =>
    exact namesOnly_bind _ fun _ => namesOnly_bind _ fun _ => namesOnly_bind _ fun _ =>
      namesOnly_fieldWrite d _
  | finv d => exact namesOnly_bind _ fun _ => namesOnly_bind _ fun _ => namesOnly_fieldWrite d _
  | ldc d => rintro ws ⟨⟩; simp [destRegs]
  | pdbl d | smul d => exact namesOnly_bind _ fun _ => namesOnly_pointWrite d _
  | padd d => exact namesOnly_bind _ fun _ => namesOnly_bind _ fun _ => namesOnly_pointWrite d _
  | smulg d => exact namesOnly_pointWrite d _

/-! ## A command that passes its checks (R109) -/

/-- The result is no fault. -/
def Yields (x : Executed) : Prop := ∃ ws, x = .ok ws

theorem yields_ok (ws : Writes) : Yields (.ok ws) := ⟨ws, rfl⟩

/-- A check that passes leaves what follows it to decide. -/
theorem yields_bind {α : Type} {x : Except CmdFault α} {g : α → Executed} {a : α} (hx : x = .ok a)
    (hg : Yields (g a)) : Yields (x >>= g) := by
  rw [hx]
  exact hg

theorem pointOperand_ok {ops : Vector Word256 16} {r : FReg} (hx : (readReg ops r).toNat < Config.p)
    (hy : (readReg ops (pairReg r)).toNat < Config.p) :
    pointOperand ops r = .ok ⟨⟨_, hx⟩, ⟨_, hy⟩⟩ :=
  pointOperand_eq_ok.2 ⟨rfl, rfl⟩

theorem commandYields_of_checked {i : Instr} {s : State}
    (hr : ∀ q ∈ rangeChecked i, (s.operand q).toNat < Config.p)
    (hd : ∀ r, divisorReg i = some r → (s.operand r).toNat ≠ 0) : Yields (commandYields i s) := by
  cases i with
  | nop => exact yields_ok _
  | fadd d a b | fsub d a b | fmul d a b =>
    obtain ⟨ha, hb⟩ : _ ∧ _ := by simpa [rangeChecked] using hr
    exact yields_bind (fieldOperand_ok ha) (yields_bind (fieldOperand_ok hb) (yields_ok _))
  | fdiv d a b =>
    obtain ⟨ha, hb⟩ : _ ∧ _ := by simpa [rangeChecked] using hr
    exact yields_bind (fieldOperand_ok ha) (yields_bind (fieldOperand_ok hb)
      (yields_bind (divisorOperand_ok (hd b rfl)) (yields_ok _)))
  | finv d a =>
    have ha : (s.operand a).toNat < Config.p := hr a (by simp [rangeChecked])
    exact yields_bind (fieldOperand_ok ha) (yields_bind (divisorOperand_ok (hd a rfl)) (yields_ok _))
  | ldc d sel => exact yields_ok _
  | pdbl d a =>
    obtain ⟨hx, hy⟩ : _ ∧ _ := by simpa [rangeChecked] using hr
    exact yields_bind (pointOperand_ok hx hy) (yields_ok _)
  | padd d a b =>
    obtain ⟨hax, hay, hbx, hby⟩ : _ ∧ _ ∧ _ ∧ _ := by simpa [rangeChecked] using hr
    exact yields_bind (pointOperand_ok hax hay) (yields_bind (pointOperand_ok hbx hby) (yields_ok _))
  | smul d k b =>
    obtain ⟨hx, hy⟩ : _ ∧ _ := by simpa [rangeChecked] using hr
    exact yields_bind (pointOperand_ok hx hy) (yields_ok _)
  | smulg d k => exact yields_ok _

/-! ## What a command depends on (R23, R38) -/

/-- The engine of SMUL and SMULG finishes with the same multiple from any two places of its schedule;
every other command reads the operands alone. -/
theorem commandYields_congr {i : Instr} {s s' : State} (ho : s.operands = s'.operands)
    (he : ∀ k B, engineJob i s.operands = some (k, B) → EngineFor s k B ∧ EngineFor s' k B) :
    commandYields i s = commandYields i s' := by
  have hfin (k : Word256) (B : Point) (hj : engineJob i s.operands = some (k, B)) :
      Engine.finish k B s.engineNow = Engine.finish k B s'.engineNow := by
    obtain ⟨h, h'⟩ := he k B hj
    rw [finish_engineNow h, finish_engineNow h']
  cases i with
  | smul d k b =>
    simp only [commandYields, smulYields, ← ho]
    cases hB : pointOperand s.operands b with
    | error c => rfl
    | ok B => exact congrArg (fun P => Except.ok (pointWrite d P)) (hfin _ B (by simp [engineJob, hB]))
  | smulg d k =>
    simp only [commandYields, smulgYields, ← ho]
    rw [hfin _ _ rfl]
  | _ => simp only [commandYields, ho]

/-- Results and faults are recorded over whatever STATUS held before (R44, R172). -/
theorem completeWith_congr {s s' : State} (hf : s.f = s'.f) (x : Executed) :
    (s.completeWith x).f = (s'.completeWith x).f ∧ (s.completeWith x).err = (s'.completeWith x).err ∧
      (s.completeWith x).errcode = (s'.completeWith x).errcode ∧
      (s.completeWith x).errreg = (s'.completeWith x).errreg := by
  cases x <;> simp [hf]

/-! ## The frame of a completion -/

theorem completeWith_retired (s : State) (x : Executed) :
    (s.completeWith x).seq = .idle ∧ (s.completeWith x).busy = false ∧ (s.completeWith x).done = true := by
  cases x <;> simp

theorem onlyWrites_completeWith (s : State) {rs : List FReg} {x : Executed} (hx : NamesOnly rs x) :
    OnlyWrites s (s.completeWith x) rs := by
  cases x with
  | ok ws => exact onlyWrites_completeOk s ws (hx ws rfl)
  | error c => exact fun _ _ => rfl

end Sys2Proof.Proofs

/-! CERTIFICATE. The statements about every command, and about SMUL. -/

namespace Sys2Proof.Proofs

open Sys2Proof.Machine Sys2Proof.Laws

/-- Settles O35: a completion is determined by what the command yields, which is the same from both. -/
theorem resultsDependOnlyOnRegisters : Obligations.ResultsDependOnlyOnRegisters := by
  intro i s s' t t' hf ho he ht ht'
  rw [exec_eq] at ht ht'
  cases ht
  cases ht'
  rw [commandYields_congr ho he]
  exact completeWith_congr hf _

/-- Settles O32: the results name only the destination, and a fault names nothing. -/
theorem commandWritesOnlyItsDestination : Obligations.CommandWritesOnlyItsDestination := by
  intro i s t ht
  rw [exec_eq] at ht
  cases ht
  refine ⟨onlyWrites_completeWith s ?_, sameAround_completeWith s _, completeWith_retired s _⟩
  split
  · exact commandYields_namesOnly i s
  · rintro ws ⟨⟩

/-- Settles O33: checks that pass leave a result to complete with. -/
theorem checkedCommandsComplete : Obligations.CheckedCommandsComplete := by
  intro i s hw hr hd
  obtain ⟨ws, h⟩ := commandYields_of_checked hr hd
  exact ⟨_, exec_ok hw h, completedOk_completeOk s ws⟩

/-- Settles O16: the engine finishes with the document's multiple of the base point that was checked. -/
theorem smulComputesTheScalarMultiple : Obligations.SmulComputesTheScalarMultiple := by
  intro s d k b hd hb
  have hw : (Instr.smul d k b).wellFormed = true := by simp [Instr.wellFormed, isEven_iff, hd, hb]
  refine ⟨pairReg_val hd, pairReg_val hb, ?_, fun hx => ?_, fun hx hy => ?_, fun B hB hE => ?_⟩
  · rw [decode_encodeFields]
    exact if_pos hw
  · exact exec_error hw (c := .range b) (by rw [commandYields, smulYields, pointOperand_range_x hx]; rfl)
  · exact exec_error hw (c := .range (pairReg b))
      (by rw [commandYields, smulYields, pointOperand_range_y hx hy]; rfl)
  · refine exec_pointWrite hw ?_
    rw [commandYields, smulYields, pointOperand_eq_ok.2 hB, ← finish_engineNow hE]
    rfl

end Sys2Proof.Proofs

/-! SUPPORT. The host's reads and writes as the steps they are, and what the offsets read as. -/

namespace Sys2Proof.Proofs

open Sys2Proof.Machine Sys2Proof.Laws

/-! ## A delivered access (R51, R53) -/

section
variable {s s0 : State} {off : Nat}

theorem step_write {w : Word32} {t : BusTarget} (h : NextAccess s (memWrite off w) s0)
    (ht : busTarget 4 off = some t) : step s = .next ((s0.writeTarget t w).reply .written) := by
  rw [step_access h, busAccess]
  simp [memWrite, ht]

theorem step_read {v : Word32} (h : NextAccess s (memRead off) s0) (hv : s0.busRead off = some v) :
    step s = .next (s0.reply (.data v)) := by
  obtain ⟨t, ht, rfl⟩ := Option.map_eq_some_iff.1 hv
  rw [step_access h, busAccess]
  simp [memRead, ht]

theorem step_cmdWrite {w : Word32} (h : NextAccess s (memWrite 0x000 w) s0) :
    step s = .next ((s0.writeCmd w).reply .written) := step_write h rfl

theorem step_ctrlWrite {w : Word32} (h : NextAccess s (memWrite 0x008 w) s0) :
    step s = .next ((s0.writeCtrl w).reply .written) := step_write h rfl

end

/-! ## The cases of a write (R25, R33 to R35) -/

theorem writeCmd_idle {s : State} (h : s.busy = false) (w : Word32) : s.writeCmd w = s.accept w := by
  simp [State.writeCmd, h]

theorem writeCmd_busy {s : State} (h : s.busy = true) (w : Word32) :
    s.writeCmd w = { s with ovr := true } := by
  simp [State.writeCmd, h]

theorem writeCtrl_srst (s : State) {w : Word32} (h : w[2] = true) : s.writeCtrl w = s.blockReset := by
  simp [State.writeCtrl, h]

theorem writeCtrl_clr (s : State) {w : Word32} (h2 : w[2] = false) (h1 : w[1] = true) :
    s.writeCtrl w = { s.clearStatus with ie := w[0] } := by
  simp [State.writeCtrl, h2, h1]

theorem writeCtrl_enable (s : State) {w : Word32} (h2 : w[2] = false) (h1 : w[1] = false) :
    s.writeCtrl w = { s with ie := w[0] } := by
  simp [State.writeCtrl, h2, h1]

/-- A bit below 3 of a CTRL word, from the word's bits 2:0. -/
theorem getElem_eq_of_and_seven_eq {w v : Word32} (h : w &&& 7 = v &&& 7) (i : Nat) (hi : i < 3) :
    w[i] = v[i] := by
  have h7 : (7 : Word32).getLsbD i = true := by
    interval_cases i <;> rfl
  have hbit : (w &&& 7).getLsbD i = (v &&& 7).getLsbD i := by rw [h]
  simp only [BitVec.getLsbD_and, h7, Bool.and_true] at hbit
  exact hbit

/-- Reserved bits are ignored: CTRL's action is that of bits 2:0 (R35). -/
theorem writeCtrl_congr (s : State) {w v : Word32} (h : w &&& 7 = v &&& 7) :
    s.writeCtrl w = s.writeCtrl v := by
  have hbit := getElem_eq_of_and_seven_eq h
  simp only [State.writeCtrl, hbit 0 (by decide), hbit 1 (by decide), hbit 2 (by decide)]

/-! ## Reading -/

/-- No read depends on the engine or on what is outside the block (R38, R56). -/
theorem busRead_hidden (s : State) (e : Option Engine) (b : List BusAccess) (c : List Turn)
    (r : List BusReply) (off : Nat) :
    ({ s with engine := e, bus := b, sched := c, replies := r } : State).busRead off = s.busRead off := by
  have ht : State.readTarget { s with engine := e, bus := b, sched := c, replies := r } = s.readTarget := by
    funext x
    cases x <;> rfl
  rw [State.busRead, State.busRead, ht]

theorem ctrlWord_eq (s : State) : s.ctrlWord = BitVec.ofNat 32 s.ie.toNat := by
  rw [State.ctrlWord]
  cases s.ie <;> rfl

/-- `zext_32` of bit 0 of a word is the word AND 1 (R35). -/
theorem setWidth_bit_zero (w : Word32) : (BitVec.ofBool w[0]).setWidth 32 = w &&& 1 := by
  rw [← BitVec.getLsbD_eq_getElem]
  exact BitVec.and_one_eq_setWidth_ofBool_getLsbD.symm

/-- A concatenation as a number, in the form `omega` reads. -/
theorem toNat_append_add {m n : Nat} (x : BitVec m) (y : BitVec n) :
    (x ++ y).toNat = x.toNat * 2 ^ n + y.toNat := by
  rw [BitVec.toNat_append, ← Nat.shiftLeft_add_eq_or_of_lt y.isLt, Nat.shiftLeft_eq]

theorem statusWord_toNat (s : State) : s.statusWord.toNat = s.busy.toNat + 2 * s.done.toNat
    + 4 * s.err.toNat + 8 * s.ovr.toNat + 16 * s.werr.toNat + 2 ^ 8 * s.errcode.toNat
    + 2 ^ 12 * s.errreg.toNat := by
  simp only [State.statusWord, toNat_append_add, BitVec.toNat_ofBool, BitVec.ofNat_eq_ofNat,
    BitVec.toNat_ofNat]
  omega

/-! ## Reset -/

theorem isReset_blockReset (s : State) : IsReset s.blockReset := by
  constructor <;> simp [State.reg, readReg_replicate]

/-! ## The operands of a command (R43) -/

theorem operands_of_inv {s : State} (h : Inv s) : s.operands = s.f := by
  obtain hq | ⟨w, ops, hq⟩ := seq_cases s
  · simp [State.operands, hq]
  · rw [operands_busy s hq, (h.latched w ops hq).2]

/-! ## The sequencer -/

theorem completeWord_ok {w : Word32} {i : Instr} (h : decode w = .ok i) (s : State) :
    completeWord w s = exec i s := by
  simp [completeWord, h]

/-- A work turn changes the engine alone (R38). -/
theorem sequencerWork_eq_engine (s : State) : ∃ e, sequencerWork s = { s with engine := e } := by
  obtain h | ⟨w, ops, k, B, -, -, h⟩ := sequencerWork_cases s
  · exact ⟨s.engine, h⟩
  · exact ⟨_, h⟩

end Sys2Proof.Proofs

/-! CERTIFICATE. The statements about acceptance, completion, CTRL, STATUS, reads and reset. -/

namespace Sys2Proof.Proofs

open Sys2Proof.Machine Sys2Proof.Laws

/-- Settles O6: a completion decodes the latched word. -/
theorem stepCompletesTheLatchedCommand : Obligations.StepCompletesTheLatchedCommand :=
  fun _ s0 _ _ _ hq hn hd => (step_completion hq hn).trans (completeWord_ok hd s0)

/-- Settles O36; the snapshot is the live registers by the invariant's `latched`. -/
theorem cmdWriteWhileIdleIsAccepted : Obligations.CmdWriteWhileIdleIsAccepted := by
  refine ⟨fun s s0 w h hb => ?_, fun s w ops hq => ?_, fun s h r => ?_⟩
  · have hb0 : s0.busy = false := (congrArg State.busy (nextAccess_eq h)).trans hb
    refine ⟨_, step_cmdWrite h, ?_⟩
    rw [writeCmd_idle hb0, nextAccess_eq h]
    simp
  · exact ⟨operands_busy s hq, fun r => by rw [State.operand, operands_busy s hq]; rfl⟩
  · exact ⟨by rw [State.operand, operands_of_inv h], rfl⟩

/-- Settles O37. BUSY where the access acts is BUSY before the step. -/
theorem cmdWriteWhileBusyIsDropped : Obligations.CmdWriteWhileBusyIsDropped := by
  intro s s0 w h hb
  have hb0 : s0.busy = true := (congrArg State.busy (nextAccess_eq h)).trans hb
  rw [step_cmdWrite h, writeCmd_busy hb0]
  rfl

/-- Settles O41; delivering the access changes nothing that is read. -/
theorem readsHaveNoSideEffect : Obligations.ReadsHaveNoSideEffect := by
  refine ⟨fun s s0 off v h hv => step_read h ?_, fun s => ⟨busRead_cmd s, busRead_status s, ?_, ?_⟩⟩
  · rw [← hv, nextAccess_eq h]
    exact busRead_hidden s _ _ _ _ off
  · rw [busRead_ctrl, ctrlWord_eq]
  · intro i j
    refine (busRead_field s i j).trans (congrArg some (BitVec.eq_of_toNat_eq ?_))
    rw [getWord_toNat, BitVec.toNat_ofNat, wordShift]

/-- Settles O43, field by field of the concatenation. -/
theorem statusWordLayout : Obligations.StatusWordLayout :=
  ⟨fun s => ⟨_, busRead_status s, statusWord_toNat s⟩, fun _ _ _ h => step_write h (t := .status) rfl⟩

/-- Settles O44 by CTRL's clear case. -/
theorem ctrlClearClearsTheStatus : Obligations.CtrlClearClearsTheStatus := by
  intro s s0 w h h2 h1
  rw [step_ctrlWrite h, writeCtrl_clr s0 h2 h1]
  rfl

/-- Settles O45 by CTRL's enable case; the action reads bits 2:0 alone. -/
theorem ctrlWriteSetsTheEnable : Obligations.CtrlWriteSetsTheEnable := by
  refine ⟨fun s s0 w h h2 h1 => ?_, fun s s' s0 s0' w v h h' hs hwv => ?_⟩
  · have hstep := step_ctrlWrite h
    rw [writeCtrl_enable s0 h2 h1] at hstep
    refine ⟨hstep, fun t ht => ?_⟩
    cases hstep.symm.trans ht
    exact congrArg some (setWidth_bit_zero w)
  · rw [step_ctrlWrite h, step_ctrlWrite h', hs, writeCtrl_congr s0' hwv]

/-- Settles O46: each source is `State.blockReset`. -/
theorem resetSourcesHaveOneEffect : Obligations.ResetSourcesHaveOneEffect := by
  refine ⟨isReset_blockReset State.reset, fun s s0 w h h2 => ?_, fun s rest hs => ?_⟩
  · have hr : s0.replies = s.replies := by rw [nextAccess_eq h]
    refine ⟨_, step_ctrlWrite h, ?_⟩
    rw [writeCtrl_srst s0 h2]
    exact ⟨isReset_blockReset (s0.reply .written), rfl, rfl, congrArg _ hr⟩
  · refine ⟨({ s with sched := rest } : State).blockReset, ?_, isReset_blockReset _, rfl, rfl, rfl⟩
    rw [step, hs]
    rfl

/-- Settles O50: the field words are words of a register file of zeros. -/
theorem resetLeavesTheResetValues : Obligations.ResetLeavesTheResetValues := by
  refine ⟨fun i j => ?_, rfl, rfl, rfl, rfl, rfl, rfl⟩
  refine (busRead_field State.reset i j).trans ?_
  rw [State.reg, State.reset, readReg_replicate]
  simp [getWord]

/-- Settles O56: the work turn changes the engine alone. -/
theorem hiddenWorkIsInvisible : Obligations.HiddenWorkIsInvisible := by
  intro s rest hs
  obtain ⟨e, he⟩ := sequencerWork_eq_engine { s with sched := rest }
  have ht : step s = .next { s with engine := e, sched := rest } := by
    rw [step, hs, ← he]
    rfl
  exact ⟨_, ht, busRead_hidden s e _ _ _, rfl, rfl, rfl, rfl, rfl⟩

end Sys2Proof.Proofs

/-! SUPPORT. Accesses to the field words, which accesses the window admits, and a register as its eight
words. -/

namespace Sys2Proof.Proofs

open Sys2Proof.Machine Sys2Proof.Laws

/-! ## A delivered write to a field word (R55, R57) -/

section
variable {s s0 : State}

/-- BUSY where an access acts is BUSY before the step. -/
theorem nextAccess_busy {a : BusAccess} (h : NextAccess s a s0) : s0.busy = s.busy := by
  rw [nextAccess_eq h]

theorem writeFieldWord_idle (h : s.busy = false) (i : FReg) (j : Fin 8) (w : Word32) :
    s.writeFieldWord i j w = { s with f := writeReg s.f i (setWord (s.reg i) j w) } := by
  simp [State.writeFieldWord, h]

theorem writeFieldWord_busy (h : s.busy = true) (i : FReg) (j : Fin 8) (w : Word32) :
    s.writeFieldWord i j w = { s with werr := true } := by
  simp [State.writeFieldWord, h]

theorem step_fieldWrite {i : FReg} {j : Fin 8} {w : Word32}
    (h : NextAccess s (memWrite (fieldOffset i j) w) s0) :
    step s = .next ((s0.writeFieldWord i j w).reply .written) :=
  step_write h (busTarget_field i j)

theorem step_fieldWrite_idle {i : FReg} {j : Fin 8} {w : Word32}
    (h : NextAccess s (memWrite (fieldOffset i j) w) s0) (hb : s.busy = false) :
    step s = .next { s0 with
      f := writeReg s0.f i (setWord (s0.reg i) j w), replies := .written :: s0.replies } := by
  rw [step_fieldWrite h, writeFieldWord_idle ((nextAccess_busy h).trans hb)]
  rfl

end

/-! ## What the window reads as after it (R54, R55) -/

/-- Word `j` of `F[i]` is the one target whose read depends on it. -/
theorem readTarget_setWord_ne (s : State) {i : FReg} {j : Fin 8} (w : Word32) {t : BusTarget}
    (ht : t ≠ .field i j) :
    ({ s with f := writeReg s.f i (setWord (s.reg i) j w) } : State).readTarget t = s.readTarget t := by
  cases t with
  | cmd | status | ctrl => rfl
  | field q k =>
    simp only [State.readTarget, State.reg]
    by_cases hq : q = i
    · subst hq
      rw [readReg_writeReg_self, getWord_setWord_ne _ _ fun hk => ht (by rw [hk])]
    · rw [readReg_writeReg_ne _ _ hq]

/-- No other offset reads differently: a field word has one offset. -/
theorem busRead_setWord_ne (s : State) {i : FReg} {j : Fin 8} (w : Word32) {off : Nat}
    (h : off ≠ fieldOffset i j) :
    ({ s with f := writeReg s.f i (setWord (s.reg i) j w) } : State).busRead off = s.busRead off := by
  rw [State.busRead, State.busRead]
  cases ht : busTarget 4 off with
  | none => rfl
  | some t =>
    refine congrArg some (readTarget_setWord_ne s w ?_)
    rintro rfl
    obtain ⟨-, ⟨-, ⟨⟩⟩ | ⟨-, ⟨⟩⟩ | ⟨-, ⟨⟩⟩ | ⟨i', j', hoff, ⟨⟩⟩⟩ := busTarget_eq_some.1 ht
    exact h hoff

/-! ## Which accesses are admitted (R52, R53) -/

theorem windowMap_eq_none {off : Nat} : windowMap off = none ↔
    ¬ (off = 0x000 ∨ off = 0x004 ∨ off = 0x008 ∨ (0x100 ≤ off ∧ off ≤ 0x2FF)) := by
  unfold windowMap
  split_ifs <;> simp only [false_iff, true_iff] <;> omega

theorem busTarget_eq_none {size off : Nat} : busTarget size off = none ↔
    size ≠ 4 ∨ off % 4 ≠ 0 ∨
      ¬ (off = 0x000 ∨ off = 0x004 ∨ off = 0x008 ∨ (0x100 ≤ off ∧ off ≤ 0x2FF)) := by
  rw [← windowMap_eq_none, busTarget, ite_eq_right_iff]
  tauto

theorem busAccess_not_admitted {a : BusAccess} (h : busTarget a.size a.offset = none) (s : State) :
    busAccess a s = .fault (.busError a.offset a.size) := by
  simp [busAccess, h]

theorem busAccess_admitted {a : BusAccess} (h : busTarget a.size a.offset ≠ none) (s : State) :
    ∃ t, busAccess a s = .next t := by
  obtain ⟨hn, -⟩ | ⟨t, -, -, ht⟩ | ⟨t, v, -, -, ht⟩ := busAccess_cases a s
  · exact absurd hn h
  · exact ⟨_, ht⟩
  · exact ⟨_, ht⟩

/-! ## A register as its eight words (R54, R60) -/

/-- A register is its words. -/
theorem word256_ext {u v : Word256} (h : ∀ j, getWord u j = getWord v j) : u = v := by
  apply BitVec.eq_of_getLsbD_eq
  intro b hb
  have hj := congrArg (fun x => x.getLsbD (b % 32)) (h ⟨7 - b / 32, by omega⟩)
  have hbit : wordShift ⟨7 - b / 32, by omega⟩ + b % 32 = b := by
    simp only [wordShift]
    omega
  simpa only [getWord_getLsbD, hbit, Nat.mod_lt b (show 0 < 32 by decide), decide_true,
    Bool.true_and] using hj

/-- The value `u` with the words `js` of `v` written over it, in order. -/
def setWords (v : Word256) (js : List (Fin 8)) (u : Word256) : Word256 :=
  js.foldl (fun u j => setWord u j (getWord v j)) u

theorem setWords_cons (v : Word256) (j : Fin 8) (js : List (Fin 8)) (u : Word256) :
    setWords v (j :: js) u = setWords v js (setWord u j (getWord v j)) := rfl

theorem getWord_setWords (v : Word256) (js : List (Fin 8)) (u : Word256) (k : Fin 8) :
    getWord (setWords v js u) k = if k ∈ js then getWord v k else getWord u k := by
  induction js generalizing u with
  | nil => rfl
  | cons j js ih =>
    rw [setWords_cons, ih]
    by_cases hk : k = j
    · subst hk
      simp
    · simp [hk, getWord_setWord_ne]

/-- Writing every word over a value leaves nothing of it. -/
theorem setWords_finRange (v u : Word256) : setWords v (List.finRange 8) u = v :=
  word256_ext fun k => by rw [getWord_setWords, if_pos (List.mem_finRange k)]

theorem writeReg_readReg_self (f : Vector Word256 16) (r : FReg) : writeReg f r (readReg f r) = f := by
  simp [writeReg, readReg]

theorem writeReg_writeReg_self (f : Vector Word256 16) (r : FReg) (u v : Word256) :
    writeReg (writeReg f r u) r v = writeReg f r v := by
  simp [writeReg]

/-! ## A run of word writes to one register (R83) -/

theorem run_succ_of_step {M : Host.Core} {s t : M.State} (h : M.step s = .next t) (k : Nat) :
    M.run (k + 1) s = M.run k t := by
  rw [Host.Core.run, h]

/-- With nothing scheduled, IDLE, the writes first on the bus are performed one a step. -/
theorem run_fieldWrites (i : FReg) (v : Word256) (more : List BusAccess) (js : List (Fin 8))
    {s : State} (hb : s.busy = false) (hq : s.seq = .idle) (hs : s.sched = [])
    (hbus : s.bus = js.map (fun j => memWrite (fieldOffset i j) (getWord v j)) ++ more) :
    Host.Core.run Sys2Proof.core js.length s =
      .next { s with
        f := writeReg s.f i (setWords v js (s.reg i)), bus := more,
        replies := List.replicate js.length .written ++ s.replies } := by
  induction js generalizing s with
  | nil =>
    simp only [List.map_nil, List.nil_append] at hbus
    simp [Host.Core.run, setWords, writeReg_readReg_self, ← hbus]
  | cons j js ih =>
    have hstep := step_fieldWrite_idle ⟨js.map _ ++ more, hbus, .inr ⟨hs, hq, rfl⟩⟩ hb
    refine (run_succ_of_step (M := core) hstep js.length).trans ((ih ?_ ?_ ?_ ?_).trans ?_)
    · exact hb
    · exact hq
    · exact hs
    · rfl
    · simp only [State.reg, readReg_writeReg_self, writeReg_writeReg_self, setWords_cons, List.length_cons,
        List.replicate_succ', List.append_assoc, List.singleton_append]

end Sys2Proof.Proofs

/-! CERTIFICATE. The statements about the register window and its field words. -/

namespace Sys2Proof.Proofs

open Sys2Proof.Machine Sys2Proof.Laws

/-- Settles O38: the new register file is read offset by offset, bit by bit and register by register. -/
theorem fieldWordWriteWhileIdle : Obligations.FieldWordWriteWhileIdle := by
  intro s s0 i j v h hb
  have hread (off : Nat) : s0.busRead off = s.busRead off := by
    rw [nextAccess_eq h]
    exact busRead_hidden s _ _ _ _ off
  have hf : s0.f = s.f := by rw [nextAccess_eq h]
  refine ⟨_, step_fieldWrite_idle h hb, ?_, fun off hoff => ?_, fun b => ?_, fun q hq => ?_,
    by rw [nextAccess_eq h], by rw [nextAccess_eq h], rfl, rfl⟩
  · refine (busRead_field _ i j).trans (congrArg some ?_)
    rw [State.reg, readReg_writeReg_self, getWord_setWord_self]
  · rw [← hread off, ← busRead_setWord_ne s0 v hoff]
    exact busRead_hidden { s0 with f := _ } _ _ _ _ off
  · rw [State.reg, readReg_writeReg_self, setWord_getLsbD, State.reg, hf]
    have hshift : wordShift j ≤ b ∧ b < wordShift j + 32 ↔
        224 - 32 * j.val ≤ b ∧ b ≤ 255 - 32 * j.val := by
      simp only [wordShift]
      omega
    exact if_congr hshift rfl rfl
  · rw [State.reg, readReg_writeReg_ne _ _ hq, hf]

/-- Settles O42 by the map of the window. -/
theorem busErrorIffNotAdmitted : Obligations.BusErrorIffNotAdmitted := by
  intro s s0 a h
  rw [step_access h]
  exact ⟨fun hn => busAccess_not_admitted (busTarget_eq_none.2 hn) s0,
    fun ha => busAccess_admitted (mt busTarget_eq_none.1 (by tauto)) s0⟩

/-- Settles O49, by induction on the words still to be written; all eight leave nothing of the old value. -/
theorem eightWordWritesSetTheRegister : Obligations.EightWordWritesSetTheRegister := by
  intro s i v more hb hq hs hbus
  have hrun := run_fieldWrites i v more (List.finRange 8) hb hq hs hbus
  rwa [setWords_finRange, List.length_finRange] at hrun

/-- Settles O39 by the busy case of a field-word write. -/
theorem fieldWordWriteWhileBusyIsDropped : Obligations.FieldWordWriteWhileBusyIsDropped := by
  intro s s0 i j v h hb
  rw [step_fieldWrite (i := i) (j := j) h, writeFieldWord_busy ((nextAccess_busy h).trans hb)]
  rfl

/-- Settles O40; the registers where the access acts are those before the step. -/
theorem fieldWordReadReturnsTheCommittedWord : Obligations.FieldWordReadReturnsTheCommittedWord := by
  intro s s0 i j h
  have hf : s0.f = s.f := by rw [nextAccess_eq h]
  refine ⟨getWord (s0.reg i) j, ?_, step_read h (busRead_field s0 i j)⟩
  rw [getWord_toNat, State.reg, hf, wordShift]

/-- Settles O48: BASE is a multiple of 1024 whatever `Config.baseIndex` is. -/
theorem windowLiesAtBase : Obligations.WindowLiesAtBase := by
  refine ⟨Nat.mul_mod_right 1024 Config.baseIndex, fun s off size op h => ?_, fun s addr size op h => ?_⟩
  · rw [State.present, windowOffset_base_add h]
  · rw [State.present, windowOffset_outside h]

end Sys2Proof.Proofs

/-! SUPPORT. The command word: decoding and encoding are inverse to each other (R77, R78), and the
opcode map by the form of each command. -/

namespace Sys2Proof.Proofs

open Sys2Proof.Machine Sys2Proof.Laws

/-! ## Decoding and encoding (R77, R78) -/

theorem decode_encode {i : Instr} (h : i.wellFormed = true) : decode (encode i) = .ok i := by
  cases i <;>
    simp_all [encode, decode_encodeFields, decodeFields, Instr.opcode, Instr.wellFormed]

/-- A check of the decoder that has let a command through was met. -/
theorem check_eq_ok {P : Prop} [Decidable P] {x : Except Illegal Instr} {e : Illegal} {i : Instr} :
    (if P then x else .error e) = .ok i ↔ P ∧ x = .ok i := by
  split <;> simp_all

/-- The decoder inverted, row by row: the fields that give a command are those its encoding puts in. -/
theorem decodeFields_eq_ok {op : Nat} {d a b : FReg} {i : Instr} (h : decodeFields op d a b = .ok i) :
    i.wellFormed = true ∧ i.opcode.toNat = op ∧ encode i = encodeFields i.opcode d a b := by
  unfold decodeFields at h
  split at h
  case h_1 =>
    rw [check_eq_ok] at h
    obtain ⟨⟨rfl, rfl, rfl⟩, h⟩ := h
    cases h
    exact ⟨rfl, rfl, rfl⟩
  case h_2 | h_3 | h_4 | h_5 =>
    cases h
    exact ⟨rfl, rfl, rfl⟩
  case h_6 =>
    rw [check_eq_ok] at h
    obtain ⟨rfl, h⟩ := h
    cases h
    exact ⟨rfl, rfl, rfl⟩
  case h_7 =>
    rw [check_eq_ok] at h
    obtain ⟨rfl, h⟩ := h
    split at h <;> cases h
    next hs =>
      cases romSel_eq_some hs
      exact ⟨rfl, rfl, rfl⟩
  case h_8 | h_11 =>
    rw [check_eq_ok, check_eq_ok] at h
    obtain ⟨rfl, he, h⟩ := h
    cases h
    exact ⟨he, rfl, rfl⟩
  case h_9 | h_10 =>
    rw [check_eq_ok] at h
    obtain ⟨he, h⟩ := h
    cases h
    exact ⟨he, rfl, rfl⟩
  case h_12 => cases h

theorem decode_eq_ok_iff {w : Word32} {i : Instr} :
    decode w = .ok i ↔ i.wellFormed = true ∧ encode i = w := by
  refine ⟨fun h => ?_, fun ⟨hi, hw⟩ => hw ▸ decode_encode hi⟩
  obtain ⟨hr, h⟩ := check_eq_ok.1 h
  obtain ⟨hi, ho, he⟩ := decodeFields_eq_ok h
  rw [BitVec.eq_of_toNat_eq ho, encodeFields_fields hr] at he
  exact ⟨hi, he⟩

/-- The laws of PerInstr for every command. -/
theorem opAndRsv : (i : Instr) → OpAndRsv.Statement i
  | .nop => OpAndRsv.nop
  | .fadd d a b => OpAndRsv.fadd d a b
  | .fsub d a b => OpAndRsv.fsub d a b
  | .fmul d a b => OpAndRsv.fmul d a b
  | .fdiv d a b => OpAndRsv.fdiv d a b
  | .finv d a => OpAndRsv.finv d a
  | .ldc d sel => OpAndRsv.ldc d sel
  | .pdbl d a => OpAndRsv.pdbl d a
  | .padd d a b => OpAndRsv.padd d a b
  | .smul d a b => OpAndRsv.smul d a b
  | .smulg d a => OpAndRsv.smulg d a

/-! ## The form of each row (R72 to R77) -/

/-- What a form lets a register field hold (R72, R74 to R76). -/
inductive FieldForm where
  /-- F: every register number -/
  | any
  /-- 0: the number 0 -/
  | zero
  /-- P: an even number -/
  | even
  /-- S: a selector of the constant ROM -/
  | selector

/-- The bits of a field that a row's mask has. -/
def FieldForm.mask : FieldForm → BitVec 4
  | .any => 0
  | .zero => 15
  | .even => 1
  | .selector => 12

/-- The numbers a field of the form may hold. -/
def FieldForm.Admits : FieldForm → FReg → Prop
  | .any, _ => True
  | .zero, r => r = 0
  | .even, r => FReg.isEven r = true
  | .selector, r => ∃ sel, romSel r = some sel

theorem and_mask_eq_zero (f : FieldForm) (x : BitVec 4) : x &&& f.mask = 0 ↔ f.Admits x.toFin := by
  cases f with
  | any => simp [FieldForm.mask, FieldForm.Admits]
  | zero => exact and_allFour_eq_zero x
  | even => exact and_one_eq_zero x
  | selector => exact and_twelve_eq_zero x

/-- A row of R77 by its form: its mnemonic, its OP, and what each register field may hold. -/
structure CommandForm where
  mnemonic : String
  op : BitVec 8
  rd : FieldForm
  ra : FieldForm
  rb : FieldForm

/-- The row's mask and match, from its form. -/
def CommandForm.row (c : CommandForm) : OpcodeRow where
  mnemonic := c.mnemonic
  pattern := encodeFields c.op 0 0 0
  mask := (0xFFF : BitVec 12) ++ c.rb.mask ++ c.ra.mask ++ c.rd.mask ++ (0xFF : BitVec 8)

/-- The word meets the form: RSV is 0, OP is the row's, and each register field is admitted. -/
def CommandForm.Admits (c : CommandForm) (w : Word32) : Prop :=
  rsvField w = 0 ∧ opField w = c.op ∧
    c.rd.Admits (rdField w) ∧ c.ra.Admits (raField w) ∧ c.rb.Admits (rbField w)

/-- The form of a command's row (R77). -/
def formOf : Instr → CommandForm
  | .nop => ⟨"NOP", 0x00, .zero, .zero, .zero⟩
  | .fadd _ _ _ => ⟨"FADD", 0x01, .any, .any, .any⟩
  | .fsub _ _ _ => ⟨"FSUB", 0x02, .any, .any, .any⟩
  | .fmul _ _ _ => ⟨"FMUL", 0x03, .any, .any, .any⟩
  | .fdiv _ _ _ => ⟨"FDIV", 0x04, .any, .any, .any⟩
  | .finv _ _ => ⟨"FINV", 0x05, .any, .any, .zero⟩
  | .ldc _ _ => ⟨"LDC", 0x08, .any, .selector, .zero⟩
  | .pdbl _ _ => ⟨"PDBL", 0x10, .even, .even, .zero⟩
  | .padd _ _ _ => ⟨"PADD", 0x11, .even, .even, .even⟩
  | .smul _ _ _ => ⟨"SMUL", 0x20, .even, .any, .even⟩
  | .smulg _ _ => ⟨"SMULG", 0x21, .even, .any, .zero⟩

/-- The forms in the order of R77's rows. -/
def commandForms : List CommandForm :=
  [.nop, .fadd 0 0 0, .fsub 0 0 0, .fmul 0 0 0, .fdiv 0 0 0, .finv 0 0, .ldc 0 .p, .pdbl 0 0,
    .padd 0 0 0, .smul 0 0 0, .smulg 0 0].map formOf

theorem opcodeTable_eq : opcodeTable = commandForms.map CommandForm.row := by decide

theorem formOf_mem (i : Instr) : formOf i ∈ commandForms := by
  cases i <;> simp [commandForms, formOf]

theorem formOf_mnemonic (i : Instr) : (formOf i).mnemonic = i.mnemonic := by
  cases i <;> rfl

theorem formOf_row_mem (i : Instr) : (formOf i).row ∈ opcodeTable := by
  rw [opcodeTable_eq]
  exact List.mem_map_of_mem (formOf_mem i)

/-- A command's row is the one with its mnemonic, since the mnemonics differ. -/
theorem formOf_row_eq_iff {row : OpcodeRow} (hrow : row ∈ opcodeTable) (i : Instr) :
    (formOf i).row = row ↔ i.mnemonic = row.mnemonic := by
  have hnodup : (opcodeTable.map OpcodeRow.mnemonic).Nodup := by decide
  rw [← formOf_mnemonic]
  exact ⟨congrArg OpcodeRow.mnemonic, List.inj_on_of_nodup_map hnodup (formOf_row_mem i) hrow⟩

/-- The five fields of a row's mask. -/
theorem row_mask_fields : ∀ c ∈ commandForms, opField c.row.mask = 0xFF ∧
    rsvField c.row.mask = 0xFFF ∧ c.row.mask.extractLsb' 8 4 = c.rd.mask ∧
    c.row.mask.extractLsb' 12 4 = c.ra.mask ∧ c.row.mask.extractLsb' 16 4 = c.rb.mask := by
  decide

/-- The five fields of a row's match. -/
theorem row_pattern_fields : ∀ c ∈ commandForms, opField c.row.pattern = c.op ∧
    rsvField c.row.pattern = 0 ∧ c.row.pattern.extractLsb' 8 4 = 0 ∧
    c.row.pattern.extractLsb' 12 4 = 0 ∧ c.row.pattern.extractLsb' 16 4 = 0 := by
  decide

theorem selects_iff_admits {c : CommandForm} (hc : c ∈ commandForms) (w : Word32) :
    w &&& c.row.mask = c.row.pattern ↔ c.Admits w := by
  obtain ⟨mop, mrsv, md, ma, mb⟩ := row_mask_fields c hc
  obtain ⟨pop, prsv, pd, pa, pb⟩ := row_pattern_fields c hc
  rw [selects_iff_fields ⟨mop, mrsv, prsv⟩, md, ma, mb, pop, pd, pa, pb, and_mask_eq_zero,
    and_mask_eq_zero, and_mask_eq_zero]
  rfl

theorem admits_encode {i : Instr} (h : i.wellFormed = true) : (formOf i).Admits (encode i) := by
  cases i <;>
    simp_all [encode, formOf, CommandForm.Admits, FieldForm.Admits, Instr.opcode, Instr.wellFormed]

/-- The command that an admitted word encodes, row by row. -/
theorem exists_command_of_admits {c : CommandForm} (hc : c ∈ commandForms) {w : Word32}
    (h : c.Admits w) : ∃ i : Instr, i.wellFormed = true ∧ encode i = w ∧ formOf i = c := by
  obtain ⟨hr, ho, hd, ha, hb⟩ := h
  have hw := encodeFields_fields hr
  generalize rdField w = d, raField w = a, rbField w = b at *
  rw [ho] at hw
  subst hw
  simp only [commandForms, List.map_cons, List.map_nil, List.mem_cons, List.not_mem_nil, or_false] at hc
  rcases hc with rfl | rfl | rfl | rfl | rfl | rfl | rfl | rfl | rfl | rfl | rfl
  · cases hd; cases ha; cases hb; exact ⟨.nop, rfl, rfl, rfl⟩
  · exact ⟨.fadd d a b, rfl, rfl, rfl⟩
  · exact ⟨.fsub d a b, rfl, rfl, rfl⟩
  · exact ⟨.fmul d a b, rfl, rfl, rfl⟩
  · exact ⟨.fdiv d a b, rfl, rfl, rfl⟩
  · cases hb; exact ⟨.finv d a, rfl, rfl, rfl⟩
  · obtain ⟨sel, hs⟩ := ha
    cases romSel_eq_some hs; cases hb
    exact ⟨.ldc d sel, rfl, rfl, rfl⟩
  · cases hb; exact ⟨.pdbl d a, Bool.and_eq_true_iff.2 ⟨hd, ha⟩, rfl, rfl⟩
  · exact ⟨.padd d a b, Bool.and_eq_true_iff.2 ⟨Bool.and_eq_true_iff.2 ⟨hd, ha⟩, hb⟩, rfl, rfl⟩
  · exact ⟨.smul d a b, Bool.and_eq_true_iff.2 ⟨hd, hb⟩, rfl, rfl⟩
  · cases hb; exact ⟨.smulg d a, hd, rfl, rfl⟩

/-- A row selects a word iff the word decodes to a command of that row (R77). -/
theorem selects_iff_decode {row : OpcodeRow} (hrow : row ∈ opcodeTable) (w : Word32) :
    w &&& row.mask = row.pattern ↔ ∃ i, decode w = .ok i ∧ (formOf i).row = row := by
  simp only [decode_eq_ok_iff]
  constructor
  · rw [opcodeTable_eq] at hrow
    obtain ⟨c, hc, rfl⟩ := List.mem_map.1 hrow
    intro h
    obtain ⟨i, hi, hw, rfl⟩ := exists_command_of_admits hc ((selects_iff_admits hc w).1 h)
    exact ⟨i, ⟨hi, hw⟩, rfl⟩
  · rintro ⟨i, ⟨hi, rfl⟩, rfl⟩
    exact (selects_iff_admits (formOf_mem i) _).2 (admits_encode hi)

/-- The rows are disjoint: a word has one decoding, and that one row. -/
theorem row_eq_of_selects {w : Word32} {row row' : OpcodeRow} (hrow : row ∈ opcodeTable)
    (hrow' : row' ∈ opcodeTable) (h : w &&& row.mask = row.pattern)
    (h' : w &&& row'.mask = row'.pattern) : row = row' := by
  obtain ⟨i, hi, rfl⟩ := (selects_iff_decode hrow w).1 h
  obtain ⟨i', hi', rfl⟩ := (selects_iff_decode hrow' w).1 h'
  cases hi.symm.trans hi'
  rfl

/-- A legal word is the sum of its shifted fields (R77). -/
theorem toNat_of_decode {w : Word32} {i : Instr} (h : decode w = .ok i) :
    w.toNat = i.opcode.toNat + 2 ^ 8 * (rdField w).val + 2 ^ 12 * (raField w).val
      + 2 ^ 16 * (rbField w).val := by
  obtain ⟨-, rfl⟩ := decode_eq_ok_iff.1 h
  obtain ⟨hop, hrsv⟩ := opAndRsv i
  rw [← hop, ← fieldsWord_toNat, encodeFields_fields hrsv]

/-! ## The illegal words (R79) -/

theorem exists_romSel_iff (r : FReg) : (∃ sel, romSel r = some sel) ↔ r.val < 4 := by
  rw [← Option.isSome_iff_exists]
  revert r
  decide

/-- The opcodes of the table (R77). -/
def tableOps : List (BitVec 8) := [0x00, 0x01, 0x02, 0x03, 0x04, 0x05, 0x08, 0x10, 0x11, 0x20, 0x21]

/-- The causes R79 lists. -/
def ListedIllegal (w : Word32) : Prop :=
  opField w ∉ tableOps ∨
    rsvField w ≠ 0 ∨
    (opField w ∈ ([0x10, 0x11, 0x20, 0x21] : List (BitVec 8)) ∧ (rdField w).val % 2 = 1) ∨
    (opField w ∈ ([0x10, 0x11] : List (BitVec 8)) ∧ (raField w).val % 2 = 1) ∨
    (opField w ∈ ([0x11, 0x20] : List (BitVec 8)) ∧ (rbField w).val % 2 = 1) ∨
    (opField w = 0x00 ∧ (rdField w ≠ 0 ∨ raField w ≠ 0)) ∨
    (opField w ∈ ([0x00, 0x05, 0x08, 0x10, 0x21] : List (BitVec 8)) ∧ rbField w ≠ 0) ∨
    (opField w = 0x08 ∧ 4 ≤ (raField w).val)

theorem form_op_mem : ∀ c ∈ commandForms, c.op ∈ tableOps := by decide

/-- The rows' masks, read as forms. -/
theorem no_row_selects_iff (w : Word32) :
    (∀ row ∈ opcodeTable, w &&& row.mask ≠ row.pattern) ↔ ∀ c ∈ commandForms, ¬ c.Admits w := by
  rw [opcodeTable_eq, List.forall_mem_map]
  exact forall₂_congr fun c hc => not_congr (selects_iff_admits hc w)

/-- With RSV 0 and OP in the table, the one row of that OP decides. -/
theorem no_form_iff_listed (w : Word32) : (∀ c ∈ commandForms, ¬ c.Admits w) ↔ ListedIllegal w := by
  by_cases hr : rsvField w = 0
  case neg => exact iff_of_true (fun c _ h => hr h.1) (.inr (.inl hr))
  by_cases ho : opField w ∈ tableOps
  case neg => exact iff_of_true (fun c hc h => ho (h.2.1 ▸ form_op_mem c hc)) (.inl ho)
  simp only [tableOps, List.mem_cons, List.not_mem_nil, or_false] at ho
  simp only [ListedIllegal, tableOps, commandForms, List.map_cons, List.map_nil, List.forall_mem_cons,
    formOf, CommandForm.Admits, FieldForm.Admits, exists_romSel_iff, isEven_iff]
  generalize opField w = op at *
  rcases ho with rfl | rfl | rfl | rfl | rfl | rfl | rfl | rfl | rfl | rfl | rfl <;>
    simp [hr] <;> grind

theorem decode_error_of_no_row {w : Word32} (h : ∀ row ∈ opcodeTable, w &&& row.mask ≠ row.pattern) :
    ∃ e, decode w = .error e := by
  cases hd : decode w with
  | ok i =>
    have hrow := formOf_row_mem i
    exact absurd ((selects_iff_decode hrow w).2 ⟨i, hd, rfl⟩) (h _ hrow)
  | error e => exact ⟨e, rfl⟩

theorem completeWord_error {w : Word32} {e : Illegal} (h : decode w = .error e) (s : State) :
    completeWord w s = .next (s.completeFault .illegal) := by
  simp [completeWord, h]

end Sys2Proof.Proofs

/-! CERTIFICATE. The statements about the command word. -/

namespace Sys2Proof.Proofs

open Sys2Proof.Machine Sys2Proof.Laws

/-- Settles O2, command by command: the fields read back are those put in. -/
theorem decodeOfEncodeIsTheCommand : Obligations.DecodeOfEncodeIsTheCommand := fun _ => decode_encode

/-- Settles O3 by the inversion of the decoder. -/
theorem encodeOfDecodeIsTheWord : Obligations.EncodeOfDecodeIsTheWord := fun _ _ => decode_eq_ok_iff.1

/-- Settles O4: a row selects the words that decode to its commands. -/
theorem wordsFollowTheOpcodeMap : Obligations.WordsFollowTheOpcodeMap := by
  refine ⟨fun w row hrow => ?_, fun w i _ => ⟨_, formOf_row_mem i, formOf_mnemonic i⟩,
    fun w row row' => row_eq_of_selects, by decide, fun w i => toNat_of_decode⟩
  simp only [selects_iff_decode hrow, formOf_row_eq_iff hrow]

/-- Settles O5: no form admits the words listed, and the decoder answers them with an error. -/
theorem illegalWordsAreTheListed : Obligations.IllegalWordsAreTheListed := by
  intro w
  refine ⟨(no_row_selects_iff w).trans (no_form_iff_listed w), fun h s s0 ops hq hn => ?_⟩
  obtain ⟨e, he⟩ := decode_error_of_no_row h
  exact ⟨_, (step_completion hq hn).trans (completeWord_error he s0), faulted_completeFault s0 .illegal⟩

/-- Settles O1 by evaluation: the nine words are literals. -/
theorem specWordsDecodeAndEncode : Obligations.SpecWordsDecodeAndEncode := by
  unfold Obligations.SpecWordsDecodeAndEncode
  decide

end Sys2Proof.Proofs

/-! SUPPORT. The laws of the field functions (R103, R105, R108), from the field of residues mod p. -/

namespace Sys2Proof.Proofs

open Sys2Proof.Machine Sys2Proof.Laws

section
variable (a b c : Fp)

/-! ## The adder (R103) -/

theorem addp_comm : addp a b = addp b a := by
  rw [← residue_inj, residue_addp, residue_addp, add_comm]

theorem addp_assoc : addp (addp a b) c = addp a (addp b c) := by
  simp only [← residue_inj, residue_addp, add_assoc]

theorem subp_addp_cancel : subp (addp a b) b = a := by
  rw [← residue_inj, residue_subp, residue_addp, add_sub_cancel_right]

theorem addp_subp_cancel : addp (subp a b) b = a := by
  rw [← residue_inj, residue_addp, residue_subp, sub_add_cancel]

variable {a b} in
theorem modEq_add_iff {r : Fp} : (r.val : Int) ≡ a.val + b.val [ZMOD Config.p] ↔ r = addp a b := by
  rw [val_modEq_iff, ← residue_inj, residue_addp]
  simp

variable {a b} in
theorem modEq_sub_iff {r : Fp} : (r.val : Int) ≡ a.val - b.val [ZMOD Config.p] ↔ r = subp a b := by
  rw [val_modEq_iff, ← residue_inj, residue_subp]
  simp

/-- The sum is below 2p, so one subtraction of p corrects it. -/
theorem addp_val_eq_ite : (addp a b).val =
    if a.val + b.val < Config.p then a.val + b.val else a.val + b.val - Config.p := by
  have ha := a.isLt
  have hb := b.isLt
  rw [addp_val]
  split
  · exact Nat.mod_eq_of_lt ‹_›
  · rw [Nat.mod_eq_sub_mod (by omega), Nat.mod_eq_of_lt (by omega)]

/-- The difference is above -p, so one addition of p corrects it. -/
theorem subp_val_eq_ite : ((subp a b).val : Int) =
    if b.val ≤ a.val then (a.val : Int) - b.val else (a.val : Int) - b.val + Config.p := by
  have ha := a.isLt
  have hb := b.isLt
  rw [subp_val_int]
  split
  · exact Int.emod_eq_of_lt (by omega) (by omega)
  · rw [← Int.add_emod_right, Int.emod_eq_of_lt (by omega) (by omega)]

/-! ## The multiplier (R105) -/

theorem mulp_comm : mulp a b = mulp b a := by
  rw [← residue_inj, residue_mulp, residue_mulp, mul_comm]

theorem mulp_assoc : mulp (mulp a b) c = mulp a (mulp b c) := by
  simp only [← residue_inj, residue_mulp, mul_assoc]

theorem mulp_addp : mulp a (addp b c) = addp (mulp a b) (mulp a c) := by
  simp only [← residue_inj, residue_mulp, residue_addp, mul_add]

end

section
variable [Fact (Nat.Prime Config.p)] {a b : Fp}

/-- The residues mod the prime p have no zero divisors. -/
theorem mulp_eq_zero : mulp a b = Fp.zero ↔ a = Fp.zero ∨ b = Fp.zero := by
  simp only [← residue_eq_zero, residue_mulp, mul_eq_zero]

/-! ## The divider (R106 to R108) -/

theorem invp_ne_zero (hb : b ≠ Fp.zero) : invp b ≠ Fp.zero := by
  rw [ne_eq, ← residue_eq_zero, residue_invp]
  exact inv_ne_zero (residue_eq_zero.not.2 hb)

theorem divp_eq_zero (hb : b ≠ Fp.zero) : divp a b = Fp.zero ↔ a = Fp.zero := by
  rw [divp, mulp_eq_zero, or_iff_left (invp_ne_zero hb)]

/-- The quotient is unique: a divisor that is not 0 cancels. -/
theorem mulp_eq_iff_eq_divp (hb : b ≠ Fp.zero) {q : Fp} : mulp q b = a ↔ q = divp a b := by
  rw [← residue_inj, ← residue_inj, residue_mulp, residue_divp,
    eq_div_iff (residue_eq_zero.not.2 hb)]

/-- The inverse is unique. -/
theorem mulp_eq_one_iff_eq_invp (ha : a ≠ Fp.zero) {c : Fp} : mulp a c = Fp.one ↔ c = invp a := by
  rw [← residue_inj, ← residue_inj, residue_mulp, residue_one, residue_invp, mul_comm,
    mul_eq_one_iff_eq_inv₀ (residue_eq_zero.not.2 ha)]

end

end Sys2Proof.Proofs

/-! SUPPORT. How a command of field operands ends: its checks in order, and its one result; and that
the results of every command but LDC are reduced. -/

namespace Sys2Proof.Proofs

open Sys2Proof.Machine Sys2Proof.Laws

section
variable {i : Instr} {s : State} {d a b : FReg}

/-- A command that yields a field element completes, and writes it to its destination and nowhere
else. -/
theorem exec_fieldWrite (hw : i.wellFormed = true) {v : Fp}
    (h : commandYields i s = .ok (fieldWrite d v)) :
    ∃ t, exec i s = .next t ∧ CompletedOk s t ∧ OnlyWrites s t [d] ∧ (t.reg d).toNat = v.val :=
  ⟨_, exec_ok hw h, completedOk_completeOk s _, onlyWrites_completeOk s _ (by simp [fieldWrite]),
    writeRegs_field_self s.f d v⟩

/-! ## A command of two field operands (R100) -/

section
variable {op : Fp → Fp → Fp} (hw : i.wellFormed = true)
  (hi : commandYields i s = fieldBinary op d a b s.operands)
include hw hi

theorem exec_fieldBinary_range_left (ha : Config.p ≤ (s.operand a).toNat) :
    ∃ t, exec i s = .next t ∧ Faulted s t 2 a :=
  exec_error hw (c := .range a) (by rw [hi, fieldBinary_eq, dif_neg ha.not_gt])

theorem exec_fieldBinary_range_right (ha : (s.operand a).toNat < Config.p)
    (hb : Config.p ≤ (s.operand b).toNat) : ∃ t, exec i s = .next t ∧ Faulted s t 2 b :=
  exec_error hw (c := .range b) (by rw [hi, fieldBinary_eq, dif_pos ha, dif_neg hb.not_gt])

theorem exec_fieldBinary_ok (ha : (s.operand a).toNat < Config.p)
    (hb : (s.operand b).toNat < Config.p) :
    ∃ t, exec i s = .next t ∧ CompletedOk s t ∧ OnlyWrites s t [d] ∧
      (t.reg d).toNat = (op ⟨_, ha⟩ ⟨_, hb⟩).val :=
  exec_fieldWrite hw (by rw [hi, fieldBinary_eq, dif_pos ha, dif_pos hb])

end

end

/-! ## Reduced results (R100, R130) -/

/-- A result that is no fault leaves the registers of the list below p. -/
def LeavesReduced (rs : List FReg) (x : Executed) : Prop :=
  ∀ ws, x = .ok ws → ∀ f, ∀ r ∈ rs, (readReg (writeRegs f ws) r).toNat < Config.p

/-- A check before a result changes nothing of what it writes. -/
theorem leavesReduced_bind {α : Type} {rs : List FReg} (x : Except CmdFault α) {g : α → Executed}
    (h : ∀ a, LeavesReduced rs (g a)) : LeavesReduced rs (x >>= g) := by
  cases x with
  | ok a => exact h a
  | error c => rintro ws ⟨⟩

theorem leavesReduced_fieldWrite (d : FReg) (v : Fp) : LeavesReduced [d] (.ok (fieldWrite d v)) := by
  rintro ws ⟨⟩ f r hr
  rw [List.mem_singleton.1 hr, writeRegs_field_self]
  exact v.isLt

theorem leavesReduced_pointWrite (d : FReg) (P : Point) :
    LeavesReduced [d, pairReg d] (.ok (pointWrite d P)) := by
  rintro ws ⟨⟩ f r hr
  obtain rfl | rfl : r = d ∨ r = pairReg d := by simpa using hr
  · rw [writeRegs_point_x]
    exact P.x.isLt
  · rw [writeRegs_point_y]
    exact P.y.isLt

theorem commandYields_leavesReduced {i : Instr} (s : State) (hi : ∀ d sel, i ≠ .ldc d sel) :
    LeavesReduced (destRegs i) (commandYields i s) := by
  cases i with
  | nop => exact fun _ _ _ _ hr => nomatch hr
  | fadd d | fsub d | fmul d =>
    exact leavesReduced_bind _ fun _ => leavesReduced_bind _ fun _ => leavesReduced_fieldWrite d _
  | fdiv d =>
    exact leavesReduced_bind _ fun _ => leavesReduced_bind _ fun _ => leavesReduced_bind _ fun _ =>
      leavesReduced_fieldWrite d _
  | finv d =>
    exact leavesReduced_bind _ fun _ => leavesReduced_bind _ fun _ => leavesReduced_fieldWrite d _
  | ldc d sel => exact absurd rfl (hi d sel)
  | pdbl d | smul d => exact leavesReduced_bind _ fun _ => leavesReduced_pointWrite d _
  | padd d =>
    exact leavesReduced_bind _ fun _ => leavesReduced_bind _ fun _ => leavesReduced_pointWrite d _
  | smulg d => exact leavesReduced_pointWrite d _

/-- A completion that records no error has written results (R44). -/
theorem eq_ok_of_completeWith_err {s : State} {x : Executed} (h : (s.completeWith x).err = false) :
    ∃ ws, x = .ok ws := by
  cases x with
  | ok ws => exact ⟨ws, rfl⟩
  | error c => simp at h

end Sys2Proof.Proofs

/-! CERTIFICATE. The statements about the field functions and the field commands. -/

namespace Sys2Proof.Proofs

open Sys2Proof.Machine Sys2Proof.Laws

/-- Settles O18: the laws of addition and subtraction of residues, and the ranges of sum and
difference. -/
theorem modularAdderLaws : Obligations.ModularAdderLaws := fun a b c =>
  ⟨addp_comm a b, addp_assoc a b c, subp_addp_cancel a b, addp_subp_cancel a b,
    fun _ => modEq_add_iff, fun _ => modEq_sub_iff, addp_val_eq_ite a b, subp_val_eq_ite a b⟩

/-- Settles O19: the residues mod the prime p are a field. -/
theorem modularMultiplierLaws : Obligations.ModularMultiplierLaws := fun a b c =>
  have := p_fact
  ⟨mulp_comm a b, mulp_assoc a b c, mulp_addp a b c, mulp_eq_zero⟩

/-- Settles O20: the quotient is the residues' own, and `divp` is `mulp` by the inverse by definition. -/
theorem dividerLaws : Obligations.DividerLaws := fun a _ hb =>
  have := p_fact
  ⟨mulp_divp a hb, rfl, invp_ne_zero hb, divp_eq_zero hb⟩

/-- Settles O9: the shared form of two field operands, with the adder. -/
theorem faddAddsModP : Obligations.FaddAddsModP := fun _ d a b =>
  ⟨decode_encode (i := .fadd d a b) rfl, exec_fieldBinary_range_left rfl rfl,
    exec_fieldBinary_range_right rfl rfl, exec_fieldBinary_ok (i := .fadd d a b) (op := addp) rfl rfl⟩

/-- Settles O10: the shared form of two field operands, with the subtractor, whose result is one
conditional correction of the difference. -/
theorem fsubSubtractsModP : Obligations.FsubSubtractsModP := by
  intro s d a b
  refine ⟨decode_encode (i := .fsub d a b) rfl, exec_fieldBinary_range_left rfl rfl,
    exec_fieldBinary_range_right rfl rfl, fun ha hb => ?_⟩
  obtain ⟨t, ht, hok, hframe, hv⟩ := exec_fieldBinary_ok (i := .fsub d a b) rfl rfl ha hb
  exact ⟨t, ht, hok, hframe, by rw [hv, subp_val_eq_ite]⟩

/-- Settles O11: the shared form of two field operands, with the multiplier. -/
theorem fmulMultipliesModP : Obligations.FmulMultipliesModP := fun _ d a b =>
  ⟨decode_encode (i := .fmul d a b) rfl, exec_fieldBinary_range_left rfl rfl,
    exec_fieldBinary_range_right rfl rfl, exec_fieldBinary_ok (i := .fmul d a b) (op := mulp) rfl rfl⟩

/-- Settles O12: the checks in FDIV's order, and the quotient with its uniqueness. -/
theorem fdivDividesModP : Obligations.FdivDividesModP := by
  intro s d a b
  have := p_fact
  have hy : commandYields (.fdiv d a b) s = fdivYields d a b s.operands := rfl
  refine ⟨decode_encode (i := .fdiv d a b) rfl, fun ha => ?_,
    fun ha hb => ?_, fun ha h0 => ?_, fun ha hb h0 => ?_⟩
  · exact exec_error rfl (c := .range a) (by rw [hy, fdivYields_eq, dif_neg ha.not_gt])
  · exact exec_error rfl (c := .range b) (by rw [hy, fdivYields_eq, dif_pos ha, dif_neg hb.not_gt])
  · have hb : (s.operand b).toNat < Config.p := h0 ▸ p_pos
    exact exec_error rfl (c := .divzero b)
      (by rw [hy, fdivYields_eq, dif_pos ha, dif_pos hb, if_pos h0])
  · obtain ⟨t, ht, hok, hframe, hv⟩ := exec_fieldWrite (i := .fdiv d a b) rfl
      (by rw [hy, fdivYields_eq, dif_pos ha, dif_pos hb, if_neg h0])
    have hb0 : (⟨(s.operand b).toNat, hb⟩ : Fp) ≠ Fp.zero := (eq_zero_iff _).not.2 h0
    refine ⟨t, ht, hok, hframe, ?_, ?_, fun q hq h => ?_⟩ <;> rw [hv]
    · exact Fin.isLt _
    · exact Fin.ext_iff.1 (mulp_divp _ hb0)
    · exact Fin.ext_iff.1 ((mulp_eq_iff_eq_divp (a := ⟨_, ha⟩) hb0 (q := ⟨q, hq⟩)).1 (Fin.ext h))

/-- Settles O13: the checks in FINV's order, and the inverse with its uniqueness. -/
theorem finvInvertsModP : Obligations.FinvInvertsModP := by
  intro s d a
  have := p_fact
  have hy : commandYields (.finv d a) s = finvYields d a s.operands := rfl
  refine ⟨decode_encode (i := .finv d a) rfl, fun ha => ?_, fun h0 => ?_, fun ha h0 => ?_⟩
  · exact exec_error rfl (c := .range a) (by rw [hy, finvYields_eq, dif_neg ha.not_gt])
  · have ha : (s.operand a).toNat < Config.p := h0 ▸ p_pos
    exact exec_error rfl (c := .divzero a) (by rw [hy, finvYields_eq, dif_pos ha, if_pos h0])
  · obtain ⟨t, ht, hok, hframe, hv⟩ := exec_fieldWrite (i := .finv d a) rfl
      (by rw [hy, finvYields_eq, dif_pos ha, if_neg h0])
    have ha0 : (⟨(s.operand a).toNat, ha⟩ : Fp) ≠ Fp.zero := (eq_zero_iff _).not.2 h0
    refine ⟨t, ht, hok, hframe, ?_, ?_, ?_, fun c _ hc h => ?_⟩ <;> rw [hv]
    · exact Nat.one_le_iff_ne_zero.2 ((eq_zero_iff _).not.1 (invp_ne_zero ha0))
    · exact Fin.isLt _
    · exact (Fin.ext_iff.1 (mulp_invp ha0)).trans one_val
    · exact Fin.ext_iff.1 ((mulp_eq_one_iff_eq_invp ha0 (c := ⟨c, hc⟩)).1
        (Fin.ext (h.trans one_val.symm)))

/-- Settles O34: a completion without an error has written what the command yields, whose values are
field elements. -/
theorem resultsAreReduced : Obligations.ResultsAreReduced := by
  intro i s t hi ht herr
  rw [exec_eq] at ht
  cases ht
  obtain ⟨ws, hx⟩ := eq_ok_of_completeWith_err herr
  rw [hx]
  split at hx
  · exact commandYields_leavesReduced s hi ws hx s.f
  · cases hx

end Sys2Proof.Proofs

/-! SUPPORT. The words with OP 0, and the selectors of LDC (R76, R120). -/

namespace Sys2Proof.Proofs

open Sys2Proof.Machine Sys2Proof.Laws

theorem eq_nop_of_opcode_zero {i : Instr} (h : i.opcode = 0x00) : i = .nop := by
  cases i with
  | nop => rfl
  | _ => exact absurd h (by simp [Instr.opcode])

/-- The one legal word with OP 0 is 0 (R120). -/
theorem eq_zero_of_decode_of_op_zero {w : Word32} {i : Instr} (ho : opField w = 0x00)
    (h : decode w = .ok i) : w = 0 := by
  obtain ⟨-, rfl⟩ := decode_eq_ok_iff.1 h
  obtain ⟨hop, -⟩ := opAndRsv i
  obtain rfl := eq_nop_of_opcode_zero (hop.symm.trans ho)
  rfl

theorem romSel_eq_ite (a : FReg) : romSel a =
    if a = 0 then some .p else if a = 1 then some .n else if a = 2 then some .gx
    else if a = 3 then some .gy else none := by
  revert a
  decide

end Sys2Proof.Proofs

/-! CERTIFICATE. The statements about NOP and LDC. -/

namespace Sys2Proof.Proofs

open Sys2Proof.Machine Sys2Proof.Laws

/-- Settles O7: a legal word with OP 0 is NOP's, and NOP's write list is empty. -/
theorem nopCompletes : Obligations.NopCompletes := by
  refine ⟨decode_encode (i := .nop) rfl, fun w ho hw => ?_, fun s s0 h hb => ?_, fun s => ?_⟩
  · cases hd : decode w with
    | ok i => exact absurd (eq_zero_of_decode_of_op_zero ho hd) hw
    | error e => exact ⟨e, rfl⟩
  · have hf : s0.f = s.f := by rw [nextAccess_eq h]
    refine ⟨_, step_cmdWrite h, ?_⟩
    rw [writeCmd_idle ((nextAccess_busy h).trans hb)]
    simp [hf]
  · exact ⟨_, exec_ok rfl rfl, completedOk_completeOk s [], rfl⟩

/-- Settles O8: the selector is the ROM's index, and the write list is the destination alone. -/
theorem ldcLoadsTheConstant : Obligations.LdcLoadsTheConstant := by
  refine ⟨fun d a => ?_, fun s d sel => ?_⟩
  · have hd : decode (encodeFields 0x08 d a 0) = match romSel a with
        | some sel => .ok (.ldc d sel)
        | none => .error .badSelector := decode_encodeFields 0x08 d a 0
    rw [hd, romSel_eq_ite]
    split_ifs <;> rfl
  · have hv : (s.completeOk [(d, rom sel)]).reg d = rom sel := readReg_writeReg_self s.f d (rom sel)
    refine ⟨_, exec_ok rfl rfl, completedOk_completeOk s _, ?_, onlyWrites_completeOk s _ (by simp)⟩
    rw [hv]
    cases sel <;> rfl

end Sys2Proof.Proofs

/-! SUPPORT. The point functions as formulas over the residues mod p, with no premise that a point lies
on the curve (R131, R134, R138): the slopes, the coordinates, and the tag of a pair. -/

namespace Sys2Proof.Proofs

open Sys2Proof.Machine Sys2Proof.Laws

theorem point_ext {P Q : Point} (hx : P.x = Q.x) (hy : P.y = Q.y) : P = Q := by
  cases P
  cases Q
  exact Point.mk.injEq .. ▸ ⟨hx, hy⟩

theorem subp_eq_zero {a b : Fp} : subp a b = Fp.zero ↔ a = b := by
  rw [← residue_eq_zero, residue_subp, sub_eq_zero, residue_inj]

/-! ## The coordinates, given the slope (R131, R134) -/

section
variable {P : Point} (hy : P.y ≠ Fp.zero)
include hy

theorem residue_dbl_x : residue (dbl P).x = residue (tangentSlope P) ^ 2 - 2 * residue P.x := by
  simp [dbl_of_y_ne_zero hy, pow_two]

theorem residue_dbl_y : residue (dbl P).y =
    residue (tangentSlope P) * (residue P.x - residue (dbl P).x) - residue P.y := by
  simp [dbl_of_y_ne_zero hy]

end

theorem residue_chordSum_x (P Q : Point) : residue (chordSum P Q).x =
    residue (chordSlope P Q) ^ 2 - residue P.x - residue Q.x := by
  simp [chordSum, pow_two]

theorem residue_chordSum_y (P Q : Point) : residue (chordSum P Q).y =
    residue (chordSlope P Q) * (residue P.x - residue (chordSum P Q).x) - residue P.y := by
  simp [chordSum]

/-! ## The slopes and their divisors (R131, R132, R134, R136) -/

section
variable [Fact (Nat.Prime Config.p)] {P Q : Point}

/-- The tangent's divisor: 2 is not 0 mod p, and the prime p leaves no zero divisors. -/
theorem two_mulp_ne_zero {y : Fp} (hy : y ≠ Fp.zero) : mulp (Fp.reduce 2) y ≠ Fp.zero := by
  have h2 : Fp.reduce 2 ≠ Fp.zero := by
    rw [ne_eq, ← residue_eq_zero, residue_reduce]
    exact two_ne_zero_mod_p
  rw [ne_eq, mulp_eq_zero]
  exact not_or.2 ⟨h2, hy⟩

theorem residue_tangentSlope_mul (hy : P.y ≠ Fp.zero) :
    residue (tangentSlope P) * (2 * residue P.y) = 3 * residue P.x ^ 2 := by
  have h := congrArg residue (mulp_divp (mulp (Fp.reduce 3) (mulp P.x P.x)) (two_mulp_ne_zero hy))
  rw [← tangentSlope] at h
  simpa [pow_two] using h

theorem residue_chordSlope_mul (hx : P.x ≠ Q.x) :
    residue (chordSlope P Q) * (residue P.x - residue Q.x) = residue P.y - residue Q.y := by
  have h := congrArg residue (mulp_divp (subp P.y Q.y) (subp_eq_zero.not.2 hx))
  rw [← chordSlope] at h
  simpa using h

/-! ## Exchanging the points of a chord (R138) -/

/-- Numerator and denominator both change sign. -/
theorem chordSlope_comm (P Q : Point) : chordSlope P Q = chordSlope Q P := by
  simp only [← residue_inj, chordSlope, residue_divp, residue_subp]
  rw [← neg_sub (residue Q.y), ← neg_sub (residue Q.x), neg_div_neg_eq]

/-- The chord passes through both points, so its y at the third x does not depend on where it
starts. -/
theorem chordSum_comm (hx : P.x ≠ Q.x) : chordSum P Q = chordSum Q P := by
  have hx3 : (chordSum P Q).x = (chordSum Q P).x := by
    rw [← residue_inj, residue_chordSum_x, residue_chordSum_x, chordSlope_comm Q P]
    ring
  refine point_ext hx3 ?_
  rw [← residue_inj, residue_chordSum_y, residue_chordSum_y, chordSlope_comm Q P, ← hx3]
  linear_combination residue_chordSlope_mul hx

theorem padd_comm (P Q : Point) : padd P Q = padd Q P := by
  by_cases hP : P = Point.identity
  · rw [hP, padd_identity_left, padd_identity_right]
  by_cases hQ : Q = Point.identity
  · rw [hQ, padd_identity_left, padd_identity_right]
  by_cases hx : P.x = Q.x
  · by_cases hPQ : P = Q
    · rw [hPQ]
    · rw [padd_opposite hP hQ hPQ hx, padd_opposite hQ hP (Ne.symm hPQ) hx.symm]
  · rw [padd_general hP hQ hx, padd_general hQ hP (Ne.symm hx), chordSum_comm hx]

end

/-! ## The tag of a pair (R135) -/

/-- The condition of R135's table for each tag, the earlier ones excluded. -/
def TagCondition (P Q : Point) : PairTag → Prop
  | .leftId => P = Point.identity
  | .rightId => P ≠ Point.identity ∧ Q = Point.identity
  | .same => P ≠ Point.identity ∧ Q ≠ Point.identity ∧ P = Q
  | .opposite => P ≠ Point.identity ∧ Q ≠ Point.identity ∧ P.x = Q.x ∧ P.y ≠ Q.y
  | .general => P ≠ Point.identity ∧ Q ≠ Point.identity ∧ P.x ≠ Q.x

/-- The tests of the classification, in order, establish the tag's condition. -/
theorem tagCondition_pairTag (P Q : Point) : TagCondition P Q (pairTag P Q) := by
  unfold pairTag
  simp only [isIdentity_iff]
  split_ifs with hP hQ hPQ hx
  · exact hP
  · exact ⟨hP, hQ⟩
  · exact ⟨hP, hQ, hPQ⟩
  · exact ⟨hP, hQ, hx, fun hy => hPQ (point_ext hx hy)⟩
  · exact ⟨hP, hQ, hx⟩

/-- The classification reaches the tag whose condition holds: every test before it fails. -/
theorem pairTag_of_tagCondition {P Q : Point} {t : PairTag} (h : TagCondition P Q t) :
    pairTag P Q = t := by
  unfold pairTag
  simp only [isIdentity_iff]
  cases t with
  | leftId => exact if_pos h
  | rightId =>
    obtain ⟨hP, hQ⟩ := h
    rw [if_neg hP, if_pos hQ]
  | same =>
    obtain ⟨hP, hQ, hPQ⟩ := h
    rw [if_neg hP, if_neg hQ, if_pos hPQ]
  | opposite =>
    obtain ⟨hP, hQ, hx, hy⟩ := h
    rw [if_neg hP, if_neg hQ, if_neg fun e => hy (congrArg Point.y e), if_pos hx]
  | general =>
    obtain ⟨hP, hQ, hx⟩ := h
    rw [if_neg hP, if_neg hQ, if_neg fun e => hx (congrArg Point.x e), if_neg hx]

/-- Each tag is that of the pairs under its condition, and of no other (R135). -/
theorem pairTag_eq_iff {P Q : Point} {t : PairTag} : pairTag P Q = t ↔ TagCondition P Q t :=
  ⟨fun h => h ▸ tagCondition_pairTag P Q, pairTag_of_tagCondition⟩

end Sys2Proof.Proofs

/-! SUPPORT. The RANGE checks of every command, as the list of registers it checks in order (R175,
R178). -/

namespace Sys2Proof.Proofs

open Sys2Proof.Machine Sys2Proof.Laws

/-- The first register of the list whose value is not below p makes the result a RANGE fault naming it. -/
def ChecksRange (ops : Vector Word256 16) (rs : List FReg) (x : Executed) : Prop :=
  ∀ pre r post, rs = pre ++ r :: post → (∀ q ∈ pre, (readReg ops q).toNat < Config.p) →
    Config.p ≤ (readReg ops r).toNat → x = .error (.range r)

theorem checksRange_nil (ops : Vector Word256 16) (x : Executed) : ChecksRange ops [] x := by
  rintro (_ | _) r post ⟨⟩

/-- A field operand is checked before whatever follows it. -/
theorem checksRange_fieldOperand {ops : Vector Word256 16} (r : FReg) {rs : List FReg} {g : Fp → Executed}
    (h : ∀ v, ChecksRange ops rs (g v)) : ChecksRange ops (r :: rs) (fieldOperand ops r >>= g) := by
  intro pre q post hrs hpre hq
  cases pre with
  | nil =>
    cases hrs
    rw [fieldOperand_range hq]
    rfl
  | cons q' pre =>
    cases hrs
    rw [fieldOperand_ok (hpre r List.mem_cons_self)]
    exact h _ pre q post rfl (fun q' hq' => hpre q' (List.mem_cons_of_mem _ hq')) hq

/-- A point operand is its two field operands, x before y (R130). -/
theorem checksRange_pointOperand {ops : Vector Word256 16} (r : FReg) {rs : List FReg}
    {g : Point → Executed} (h : ∀ P, ChecksRange ops rs (g P)) :
    ChecksRange ops (r :: pairReg r :: rs) (pointOperand ops r >>= g) := by
  simp only [pointOperand, bind_assoc, pure_bind]
  exact checksRange_fieldOperand r fun x => checksRange_fieldOperand (pairReg r) fun y => h ⟨x, y⟩

theorem commandYields_checksRange (i : Instr) (s : State) :
    ChecksRange s.operands (rangeChecked i) (commandYields i s) := by
  cases i with
  | nop | ldc | smulg => exact checksRange_nil _ _
  | fadd d a b | fsub d a b | fmul d a b | fdiv d a b =>
    exact checksRange_fieldOperand a fun _ => checksRange_fieldOperand b fun _ => checksRange_nil _ _
  | finv d a => exact checksRange_fieldOperand a fun _ => checksRange_nil _ _
  | pdbl d a => exact checksRange_pointOperand a fun _ => checksRange_nil _ _
  | padd d a b =>
    exact checksRange_pointOperand a fun _ => checksRange_pointOperand b fun _ => checksRange_nil _ _
  | smul d k b => exact checksRange_pointOperand b fun _ => checksRange_nil _ _

/-- A command completes with a RANGE fault naming the first register out of range (R175, R178). -/
theorem exec_range {i : Instr} {s : State} (hw : i.wellFormed = true) {pre : List FReg} {r : FReg}
    {post : List FReg} (hrs : rangeChecked i = pre ++ r :: post)
    (hpre : ∀ q ∈ pre, (s.operand q).toNat < Config.p) (hr : Config.p ≤ (s.operand r).toNat) :
    ∃ t, exec i s = .next t ∧ Faulted s t 2 r :=
  exec_error hw (commandYields_checksRange i s pre r post hrs hpre hr)

end Sys2Proof.Proofs

/-! CERTIFICATE. The statements about the point functions, and about PDBL and PADD. -/

namespace Sys2Proof.Proofs

open Sys2Proof.Machine Sys2Proof.Laws

/-- Settles O21: the slope is the quotient's, and the coordinates are the formulas over the residues. -/
theorem doublingFollowsTheTangent : Obligations.DoublingFollowsTheTangent := by
  intro P
  have := p_fact
  refine ⟨?_, fun hy => ⟨tangentSlope P, ?_, ?_, ?_⟩⟩
  · rintro (rfl | hy)
    · exact dbl_identity
    · exact dbl_of_y_zero hy
  · rw [← ZMod.intCast_eq_intCast_iff]
    simpa using residue_tangentSlope_mul hy
  · rw [val_modEq_iff]
    simpa using residue_dbl_x hy
  · rw [val_modEq_iff]
    simpa using residue_dbl_y hy

/-- Settles O22: the tag is the one whose condition holds, and each tag's result is its branch of the
dispatch. -/
theorem additionFollowsTheDispatch : Obligations.AdditionFollowsTheDispatch := by
  intro P Q
  have := p_fact
  refine ⟨pairTag_eq_iff, pairTag_eq_iff, pairTag_eq_iff, pairTag_eq_iff, pairTag_eq_iff,
    fun h => ?_, fun h => ?_, fun h => ?_, fun h => ?_, fun h => ?_⟩
  · obtain rfl := pairTag_eq_iff.1 h
    exact padd_identity_left Q
  · obtain ⟨-, rfl⟩ := pairTag_eq_iff.1 h
    exact padd_identity_right P
  · obtain ⟨-, -, rfl⟩ := pairTag_eq_iff.1 h
    exact padd_same P
  · obtain ⟨hP, hQ, hx, hy⟩ := pairTag_eq_iff.1 h
    exact padd_opposite hP hQ (fun e => hy (congrArg Point.y e)) hx
  · obtain ⟨hP, hQ, hx⟩ := pairTag_eq_iff.1 h
    rw [padd_general hP hQ hx]
    refine ⟨chordSlope P Q, ?_, ?_, ?_⟩
    · rw [← ZMod.intCast_eq_intCast_iff]
      simpa using residue_chordSlope_mul hx
    · rw [val_modEq_iff]
      simpa using residue_chordSum_x P Q
    · rw [val_modEq_iff]
      simpa using residue_chordSum_y P Q

/-- Settles O23: 2 and y are not 0, and the points of a GENERAL pair have different x. -/
theorem pointUnitsNeverDivideByZero : Obligations.PointUnitsNeverDivideByZero := by
  have := p_fact
  refine ⟨fun P hy => two_mulp_ne_zero hy, fun P Q h => ?_⟩
  obtain ⟨-, -, hx⟩ := pairTag_eq_iff.1 h
  exact subp_eq_zero.not.2 hx

/-- Settles O24, by the case split of the dispatch; the chord does not depend on the order of its points. -/
theorem additionCommutes : Obligations.AdditionCommutes :=
  have := p_fact
  padd_comm

/-- Settles O25: by the identity branches and the SAME branch of the dispatch. -/
theorem identityAndDoublingLaws : Obligations.IdentityAndDoublingLaws := fun P =>
  ⟨padd_identity_right P, padd_identity_left P, (padd_same P).symm⟩

/-- Settles O14: the checks of one point operand, and the result written to the destination pair. -/
theorem pdblDoublesThePoint : Obligations.PdblDoublesThePoint := by
  intro s d a hd ha
  have hw : (Instr.pdbl d a).wellFormed = true := by simp [Instr.wellFormed, isEven_iff, hd, ha]
  refine ⟨pairReg_val hd, pairReg_val ha, decode_encode (i := .pdbl d a) hw,
    fun hx => ?_, fun hx hy => ?_, fun P hP => ?_⟩
  · exact exec_range hw (pre := []) rfl (by simp) hx
  · exact exec_range hw (pre := [a]) rfl (by simpa using hx) hy
  · exact exec_pointWrite hw (by rw [commandYields, pdblYields, pointOperand_eq_ok.2 hP]; rfl)

/-- Settles O15: the checks of two point operands, and the sum written to the destination pair. -/
theorem paddAddsThePoints : Obligations.PaddAddsThePoints := by
  intro s d a b hd ha hb
  have hw : (Instr.padd d a b).wellFormed = true := by
    simp [Instr.wellFormed, isEven_iff, hd, ha, hb]
  refine ⟨pairReg_val hd, pairReg_val ha, pairReg_val hb, decode_encode (i := .padd d a b) hw,
    fun _ _ _ => exec_range hw, fun P Q hP hQ => exec_pointWrite hw ?_⟩
  rw [commandYields, paddYields, pointOperand_eq_ok.2 hP, pointOperand_eq_ok.2 hQ]
  rfl

end Sys2Proof.Proofs

/-! CERTIFICATE. The statement on the engine's schedule and the document's loop. -/

namespace Sys2Proof.Proofs

open Sys2Proof.Machine Sys2Proof.Laws

/-- Settles O28: after `m` iterations both have folded double-and-add over the scalar's first `m` bits. -/
theorem engineAgreesWithTheDocument : Obligations.EngineAgreesWithTheDocument := by
  refine fun k B => ⟨engine_eq_pmul k B, fun m hm => ?_⟩
  rw [run_init_acc k B hm]
  exact (foldl_pmulStep_fst B _ (st := (Point.identity, false)) fun _ => rfl).symm

end Sys2Proof.Proofs

/-! SUPPORT. How a well-formed command comes out of its checks (R175, R176, R178), and the level of irq
after the operations of the block (R180). -/

namespace Sys2Proof.Proofs

open Sys2Proof.Machine Sys2Proof.Laws

/-! ## The outcome of the checks -/

/-- A divisor of 0 faults once every register checked is below p (R176, R178). -/
theorem commandYields_divzero {i : Instr} {s : State} {r : FReg}
    (hr : ∀ q ∈ rangeChecked i, (s.operand q).toNat < Config.p) (hd : divisorReg i = some r)
    (h0 : (s.operand r).toNat = 0) : commandYields i s = .error (.divzero r) := by
  cases i with
  | fdiv d a b =>
    obtain rfl : b = r := Option.some.inj hd
    obtain ⟨ha, hb⟩ : _ ∧ _ := by simpa [rangeChecked] using hr
    rw [commandYields, fdivYields_eq, dif_pos ha, dif_pos hb, if_pos h0]
  | finv d a =>
    obtain rfl : a = r := Option.some.inj hd
    have ha : (s.operand a).toNat < Config.p := hr a (by simp [rangeChecked])
    rw [commandYields, finvYields_eq, dif_pos ha, if_pos h0]
  | _ => cases hd

/-- The three ways a well-formed command comes out of its checks, each with its condition on the
operands; the conditions exclude each other. -/
inductive CheckOutcome (i : Instr) (s : State) : Executed → Prop where
  /-- a register checked is not below p (R175) -/
  | range (r : FReg) : r ∈ rangeChecked i → Config.p ≤ (s.operand r).toNat →
    CheckOutcome i s (.error (.range r))
  /-- the range checks pass and the divisor is 0 (R176) -/
  | divzero (r : FReg) : (∀ q ∈ rangeChecked i, (s.operand q).toNat < Config.p) →
    divisorReg i = some r → (s.operand r).toNat = 0 → CheckOutcome i s (.error (.divzero r))
  /-- every check passes (R109) -/
  | ok (ws : Writes) : (∀ q ∈ rangeChecked i, (s.operand q).toNat < Config.p) →
    (∀ r, divisorReg i = some r → (s.operand r).toNat ≠ 0) → CheckOutcome i s (.ok ws)

/-- The registers checked are below p, or one of them is the first that is not. -/
theorem checked_or_first_out_of_range (ops : Vector Word256 16) (rs : List FReg) :
    (∀ q ∈ rs, (readReg ops q).toNat < Config.p) ∨
    ∃ pre r post, rs = pre ++ r :: post ∧ (∀ q ∈ pre, (readReg ops q).toNat < Config.p) ∧
      Config.p ≤ (readReg ops r).toNat := by
  cases h : rs.find? fun q => Config.p ≤ (readReg ops q).toNat with
  | none => exact .inl (by simpa using h)
  | some r =>
    obtain ⟨hr, pre, post, hrs, hpre⟩ := List.find?_eq_some_iff_append.1 h
    exact .inr ⟨pre, r, post, hrs, by simpa using hpre, by simpa using hr⟩

theorem commandYields_checkOutcome (i : Instr) (s : State) : CheckOutcome i s (commandYields i s) := by
  obtain hr | ⟨pre, r, post, hrs, hpre, hr⟩ := checked_or_first_out_of_range s.operands (rangeChecked i)
  · by_cases hd : ∃ r, divisorReg i = some r ∧ (s.operand r).toNat = 0
    · obtain ⟨r, hd, h0⟩ := hd
      rw [commandYields_divzero hr hd h0]
      exact .divzero r hr hd h0
    · have hd' : ∀ r, divisorReg i = some r → (s.operand r).toNat ≠ 0 := fun r h h0 => hd ⟨r, h, h0⟩
      obtain ⟨ws, hws⟩ := commandYields_of_checked hr hd'
      rw [hws]
      exact .ok ws hr hd'
  · rw [commandYields_checksRange i s pre r post hrs hpre hr]
    exact .range r (by simp [hrs]) hr

/-- A well-formed command completes with the outcome of its checks. -/
theorem checkOutcome_of_exec {i : Instr} {s t : State} (hw : i.wellFormed = true)
    (ht : exec i s = .next t) : ∃ x, CheckOutcome i s x ∧ t = s.completeWith x := by
  rw [exec_wellFormed hw] at ht
  cases ht
  exact ⟨_, commandYields_checkOutcome i s, rfl⟩

theorem code_cases (c : CmdFault) : c.code = 1 ∨ c.code = 2 ∨ c.code = 3 := by
  cases c with
  | illegal => exact .inl rfl
  | range r => exact .inr (.inl rfl)
  | divzero r => exact .inr (.inr rfl)

/-! ## The interrupt line (R37, R180) -/

theorem irq_iff (s : State) : s.irq = true ↔ s.done = true ∧ s.ie = true := Bool.and_eq_true_iff

@[simp] theorem irq_reply (s : State) (r : BusReply) : (s.reply r).irq = s.irq := rfl

@[simp] theorem irq_accept (s : State) (w : Word32) : (s.accept w).irq = false := rfl

@[simp] theorem irq_blockReset (s : State) : s.blockReset.irq = false := rfl

@[simp] theorem irq_completeWith (s : State) (x : Executed) : (s.completeWith x).irq = s.ie := by
  cases x <;> simp [State.irq]

/-- A CTRL write with CLR, with SRST or with the enable 0 leaves irq low (R33 to R35). -/
theorem irq_writeCtrl (s : State) {w : Word32} (h : w[1] = true ∨ w[2] = true ∨ w[0] = false) :
    (s.writeCtrl w).irq = false := by
  cases h2 : w[2] with
  | true => rw [writeCtrl_srst s h2, irq_blockReset]
  | false =>
    cases h1 : w[1] with
    | true => rw [writeCtrl_clr s h2 h1]; rfl
    | false =>
      have h0 : w[0] = false := by simpa [h1, h2] using h
      rw [writeCtrl_enable s h2 h1, h0]
      exact Bool.and_false _

end Sys2Proof.Proofs

/-! CERTIFICATE. The statements about command faults and the interrupt. -/

namespace Sys2Proof.Proofs

open Sys2Proof.Machine Sys2Proof.Laws

/-- Settles O29: the checks in order, and the one outcome of them whose code is 2. -/
theorem rangeFaultNamesTheFirstOutOfRange : Obligations.RangeFaultNamesTheFirstOutOfRange := by
  refine ⟨fun _ => pairReg_val, fun i s hw => ⟨fun _ _ _ => exec_range hw, fun t ht hcode => ?_⟩⟩
  obtain ⟨x, hx, rfl⟩ := checkOutcome_of_exec hw ht
  cases hx with
  | range r hmem hr => exact ⟨r, hmem, hr⟩
  | divzero | ok => simp [CmdFault.code] at hcode

/-- Settles O30, outcome by outcome of the checks. -/
theorem divzeroFaultIffZeroDivisor : Obligations.DivzeroFaultIffZeroDivisor := by
  intro i s t hw ht
  obtain ⟨x, hx, rfl⟩ := checkOutcome_of_exec hw ht
  cases hx with
  | range r hmem hr =>
    have hcode : (s.completeWith (.error (.range r))).errcode ≠ 3 := by simp [CmdFault.code]
    exact ⟨iff_of_false hcode fun ⟨hall, _⟩ => absurd (hall r hmem) hr.not_gt, fun h => absurd h hcode⟩
  | divzero r hall hd h0 =>
    exact ⟨iff_of_true rfl ⟨hall, r, hd, h0⟩, fun _ => ⟨r, hd, faulted_completeFault s (.divzero r)⟩⟩
  | ok ws _ hd =>
    have hcode : (s.completeWith (.ok ws)).errcode ≠ 3 := by simp
    exact ⟨iff_of_false hcode fun ⟨_, r, hr, h0⟩ => hd r hr h0, fun h => absurd h hcode⟩

/-- Settles O31: a completion with ERR is `State.completeFault`, which writes no register. -/
theorem faultsArePrecise : Obligations.FaultsArePrecise := by
  intro i s t ht herr
  rw [exec_eq] at ht
  generalize (if i.wellFormed then commandYields i s else .error .illegal) = x at ht
  cases ht
  cases x with
  | ok ws => simp at herr
  | error c => exact ⟨c.code, c.reg.toFin, faulted_completeFault s c, code_cases c⟩

/-- Settles O47: each event is one operation of the block, whose level of irq is known. -/
theorem interruptFollowsCompletion : Obligations.InterruptFollowsCompletion := by
  refine ⟨irq_iff, fun s s0 t w ops hq hn ht => ?_, fun s s0 t w ha ht hw => ?_,
    fun s s0 t w ha hb ht => ?_, fun s t rest hs ht => ?_⟩
  · obtain ⟨x, hx⟩ := completeWord_cases w s0
    have hie : s0.ie = s.ie := by rw [nextCompletion_eq hn]
    cases ((step_completion hq hn).trans hx).symm.trans ht
    rw [irq_completeWith, hie]
  · cases (step_ctrlWrite ha).symm.trans ht
    rw [irq_reply, irq_writeCtrl s0 hw]
  · cases (step_cmdWrite ha).symm.trans ht
    rw [irq_reply, writeCmd_idle ((nextAccess_busy ha).trans hb), irq_accept]
  · rw [step, hs] at ht
    cases ht
    exact irq_blockReset _

end Sys2Proof.Proofs

/-! SUPPORT. A command in progress under a schedule: every step ends it or takes one turn off the
schedule (R217). -/

namespace Sys2Proof.Proofs

open Sys2Proof.Machine Sys2Proof.Laws

/-- A command is in progress, the turns `c` are still scheduled, and no access on the bus is one the
window does not admit (R53): what a step keeps until the command ends. -/
structure InProgress (c : List Turn) (s : State) : Prop where
  busy : s.busy = true
  seq : ∃ w ops, s.seq = .busy w ops
  sched : s.sched = c
  admitted : ∀ a ∈ s.bus, busTarget a.size a.offset ≠ none

/-- An access ends a command in progress (a soft reset, R34) or leaves it in progress. -/
theorem busAccess_inProgress {c : List Turn} {s : State} {a : BusAccess} (h : InProgress c s)
    (ha : busTarget a.size a.offset ≠ none) :
    ∃ t, busAccess a s = .next t ∧ (t.busy = false ∨ InProgress c t) := by
  obtain ⟨hbusy, hseq, hsched, hadm⟩ := h
  obtain ⟨t, ht⟩ := busAccess_admitted ha s
  refine ⟨t, ht, ?_⟩
  obtain ⟨r, rfl⟩ | ⟨w, -, hidle, -⟩ | ⟨w, -, -, rfl⟩ | ⟨w, -, -, rfl⟩ | ⟨w, -, -, -, rfl⟩ |
    ⟨w, -, -, -, rfl⟩ | ⟨i, j, w, -, hidle, -⟩ | ⟨i, j, w, -, -, rfl⟩ := busAccess_moves ht
  · exact .inr ⟨hbusy, hseq, hsched, hadm⟩
  · cases hbusy.symm.trans hidle
  · exact .inr ⟨hbusy, hseq, hsched, hadm⟩
  · exact .inl rfl
  · exact .inr ⟨hbusy, hseq, hsched, hadm⟩
  · exact .inr ⟨hbusy, hseq, hsched, hadm⟩
  · cases hbusy.symm.trans hidle
  · exact .inr ⟨hbusy, hseq, hsched, hadm⟩

/-- A completion ends the command (R44), whatever the latched word is. -/
theorem step_completion_ends {c : List Turn} {s s0 : State} (h : InProgress c s)
    (hn : NextCompletion s s0) : ∃ t, step s = .next t ∧ t.busy = false := by
  obtain ⟨w, ops, hq⟩ := h.seq
  obtain ⟨x, hx⟩ := completeWord_cases w s0
  refine ⟨_, (step_completion hq hn).trans hx, ?_⟩
  cases x <;> rfl

/-- The step of a scheduled turn ends the command or leaves it in progress with that turn taken off. -/
theorem step_inProgress {u : Turn} {c : List Turn} {s : State} (h : InProgress (u :: c) s) :
    ∃ t, step s = .next t ∧ (t.busy = false ∨ InProgress c t) := by
  have hturn : step s = takeTurn u { s with sched := c } := by rw [step, h.sched]
  have hrest : InProgress c { s with sched := c } := ⟨h.busy, h.seq, rfl, h.admitted⟩
  cases u with
  | host =>
    obtain ⟨-, hidle⟩ | ⟨a, more, hbus, hacc⟩ := hostTurn_cases { s with sched := c }
    · exact ⟨_, hturn.trans hidle, .inr hrest⟩
    · obtain ⟨ha, hmore⟩ := List.forall_mem_cons.1 (hbus ▸ hrest.admitted)
      obtain ⟨t, ht, hend⟩ := busAccess_inProgress (s := { s with bus := more, sched := c })
        ⟨h.busy, h.seq, rfl, hmore⟩ ha
      exact ⟨t, (hturn.trans hacc).trans ht, hend⟩
  | work =>
    obtain ⟨e, he⟩ := sequencerWork_eq_engine { s with sched := c }
    refine ⟨_, hturn, .inr ?_⟩
    rw [he]
    exact ⟨h.busy, h.seq, rfl, h.admitted⟩
  | complete =>
    obtain ⟨t, ht, hend⟩ := step_completion_ends h (.inl ⟨c, h.sched, rfl⟩)
    exact ⟨t, ht, .inl hend⟩
  | reset => exact ⟨_, hturn, .inl rfl⟩

/-- By induction on the schedule: each turn ends the command or shortens the schedule, and with no turn
left the command completes. -/
theorem run_ends_command {c : List Turn} {s : State} (h : InProgress c s) :
    ∃ k ≤ c.length + 1, ∃ t : State, Host.Core.run Sys2Proof.core k s = .next t ∧ t.busy = false := by
  induction c generalizing s with
  | nil =>
    obtain ⟨t, ht, hend⟩ := step_completion_ends h (.inr ⟨h.sched, rfl⟩)
    exact ⟨1, le_rfl, t, run_succ_of_step (M := core) ht 0, hend⟩
  | cons u c ih =>
    obtain ⟨t, ht, hend | hprog⟩ := step_inProgress h
    · exact ⟨1, Nat.le_add_left 1 _, t, run_succ_of_step (M := core) ht 0, hend⟩
    · obtain ⟨k, hk, t', hrun, hend⟩ := ih hprog
      exact ⟨k + 1, Nat.succ_le_succ hk, t', (run_succ_of_step (M := core) ht k).trans hrun, hend⟩

end Sys2Proof.Proofs

/-! CERTIFICATE. The statement about the end of a command. -/

namespace Sys2Proof.Proofs

open Sys2Proof.Machine Sys2Proof.Laws

/-- Settles O57, by induction on the schedule. -/
theorem everyAcceptedCommandEnds : Obligations.EveryAcceptedCommandEnds :=
  fun _ w ops hbusy hq hadm => run_ends_command ⟨hbusy, ⟨w, ops, hq⟩, rfl, hadm⟩

end Sys2Proof.Proofs
